-- ==== Sys2Proof/Word.lean ====
section
/-! DEFINITION. The byte and the word of rule R6: unsigned bit vectors of 8 and 16 bits, so that `+` and `-` on
them are the spec's wrapping `+_8`, `-_8`, `+_16`, `-_16`. -/

namespace Sys2Proof

/-- R6: a byte, an unsigned 8-bit value; bit 7 is its most significant bit. -/
abbrev Byte := BitVec 8

/-- R6: a word, an unsigned 16-bit value; an address, `PC` and `SP` are words (R15, R16, R30). -/
abbrev Word := BitVec 16

end Sys2Proof
end

