-- ==== Sys2Proof/Config.lean ====
section
/-! DEFINITION. What is fixed for one core and never changes while it runs: the implementation parameters of rule R5,
and the names of the four entries of the immutable dispatch table (R9, R82). The spec leaves no free value (R22:
"There is no oracle and no nondeterminism"), so this file holds none. -/

namespace Sys2Proof

/-- R5, R56: what an opcode byte outside the dispatch table does. -/
inductive UnknownOpcodePolicy where
  /-- R98: a fatal error. -/
  | fault
  /-- R99: a one-cycle no-op. -/
  | nop
  deriving DecidableEq, Repr

/-- R5: the implementation parameters, under the spec's names. -/
structure Config where
  /-- `MEM_CAPACITY`: how many byte cells there are; addresses `0 .. memCapacity - 1` are in range (R30). -/
  memCapacity : Nat
  /-- `PC_RESET`: the value of `PC` after reset. -/
  pcReset : Word
  /-- `SP_RESET`: the value of `SP` after reset. -/
  spReset : Word
  /-- `BUDGET_WIDTH`: the width in bits of Execute's unsigned argument. -/
  budgetWidth : Nat
  /-- `UNKNOWN_OPCODE_POLICY`. -/
  unknownOpcodePolicy : UnknownOpcodePolicy
  /-- `OPC_LDA_IMM`. -/
  opcLdaImm : Byte
  /-- `OPC_LDA_ZP`. -/
  opcLdaZp : Byte
  /-- `OPC_LDA_ZPX`. -/
  opcLdaZpX : Byte
  /-- `OPC_JSR`. -/
  opcJsr : Byte
  deriving DecidableEq, Repr

/-- The defaults of R5's table. PRESUMED (assumption 2): the bytes 0xA5, 0xB5, 0x20 and the two reset constants are the
spec's own decisions D2, D3, D12, from general knowledge of the 6502. -/
def Config.default : Config where
  memCapacity := 65536
  pcReset := 0xFFFC#16
  spReset := 0x01FF#16
  budgetWidth := 32
  unknownOpcodePolicy := .fault
  opcLdaImm := 0xA9#8
  opcLdaZp := 0xA5#8
  opcLdaZpX := 0xB5#8
  opcJsr := 0x20#8

/-- R74: the four addressing modes; no other exists. -/
inductive AddressingMode where
  | immediate
  | zeroPage
  | zeroPageX
  | absolute
  deriving DecidableEq, Repr

/-- R55, R82: the four operations an opcode byte can select. -/
inductive Operation where
  | ldaImm
  | ldaZp
  | ldaZpX
  | jsrAbs
  deriving DecidableEq, Repr

end Sys2Proof
end

