-- ==== Sys2Proof/Syntax.lean ====
section
/-! DEFINITION. The instructions: one constructor per row of spec/opcode_table.json, with its operand as rule R53
assembles it. -/

namespace Sys2Proof

/-- R2, R55: the whole instruction set. -/
inductive Instr where
  /-- `LDA #imm` (R90); `imm` is the value loaded. -/
  | ldaImm (imm : Byte)
  /-- `LDA zp` (R91); `zp` is a zero-page address. -/
  | ldaZp (zp : Byte)
  /-- `LDA zp,X` (R92); `zp` is a zero-page base address. -/
  | ldaZpX (zp : Byte)
  /-- `JSR abs` (R95); `target` is the address jumped to. -/
  | jsrAbs (target : Word)
  deriving DecidableEq, Repr

end Sys2Proof
end

