-- ==== Sys2Proof/WellFormed.lean ====
section
/-! DEFINITION. The checks. An instruction needs none beyond its type: R53 and R95 allow every byte and every word as
an operand, so every term of `Instr` is well formed. What can be ill formed is a choice of the parameters of R5. -/

namespace Sys2Proof

/-- R5: `MEM_CAPACITY` is in `1 .. 65536`. -/
def Config.capacityOk (c : Config) : Bool := decide (1 ≤ c.memCapacity) && decide (c.memCapacity ≤ 65536)

/-- R5: `BUDGET_WIDTH` is at least 3. -/
def Config.budgetWidthOk (c : Config) : Bool := decide (3 ≤ c.budgetWidth)

/-- R5, R55: the four opcode bytes are distinct. -/
def Config.opcodesDistinct (c : Config) : Bool :=
  decide [c.opcLdaImm, c.opcLdaZp, c.opcLdaZpX, c.opcJsr].Nodup

/-- R5: a legal choice of the parameters. -/
def Config.wf (c : Config) : Bool := c.capacityOk && c.budgetWidthOk && c.opcodesDistinct

end Sys2Proof
end

