-- ==== Sys2Proof/Decode.lean ====
section
/-! DEFINITION. Instruction bytes: the byte and word helpers of rule R6, the dispatch table of R82 with each
operation's mode, length and cycles, the decoder (total, rejecting by name) and, after it, the encoder. -/

namespace Sys2Proof

/-! ## Bytes and words (R6) -/

/-- R6: `w[15:8]`. -/
def highByte (w : Word) : Byte := w.extractLsb' 8 8

/-- R6: `w[7:0]`. -/
def lowByte (w : Word) : Byte := w.extractLsb' 0 8

/-- R6: `{h, l} = h * 256 + l`. -/
def concatBytes (h l : Byte) : Word := h ++ l

/-- R6: `zext_16(b)`, the word of the same numeric value. -/
def zeroExtend16 (b : Byte) : Word := b.setWidth 16

/-! ## The dispatch table (R55, R82) -/

/-- R82: the addressing mode of each entry. -/
def Operation.mode : Operation → AddressingMode
  | .ldaImm => .immediate
  | .ldaZp => .zeroPage
  | .ldaZpX => .zeroPageX
  | .jsrAbs => .absolute

/-- R51, R74: how many operand bytes follow the opcode in each mode. -/
def AddressingMode.operandBytes : AddressingMode → Nat
  | .immediate => 1
  | .zeroPage => 1
  | .zeroPageX => 1
  | .absolute => 2

/-- R51: the whole length of an instruction in bytes. -/
def Operation.length (o : Operation) : Nat := 1 + o.mode.operandBytes

/-- R82, R135: the whole cost of an instruction in cycles, the opcode fetch included. -/
def Operation.cycles : Operation → Nat
  | .ldaImm => 2
  | .ldaZp => 3
  | .ldaZpX => 4
  | .jsrAbs => 6

/-- R82: whether the entry defines a result register (`A`), so that `Z` and `N` are recomputed (R77). -/
def Operation.definesResult : Operation → Bool
  | .ldaImm => true
  | .ldaZp => true
  | .ldaZpX => true
  | .jsrAbs => false

/-- R55: the opcode byte of each entry, a parameter of R5. -/
def Config.opcode (c : Config) : Operation → Byte
  | .ldaImm => c.opcLdaImm
  | .ldaZp => c.opcLdaZp
  | .ldaZpX => c.opcLdaZpX
  | .jsrAbs => c.opcJsr

/-- R82: the dispatch table as data, in the order R83 tests it. -/
def Config.dispatchTable (c : Config) : List (Byte × Operation) :=
  [(c.opcLdaImm, .ldaImm), (c.opcLdaZp, .ldaZp), (c.opcLdaZpX, .ldaZpX), (c.opcJsr, .jsrAbs)]

/-- The first entry whose whole opcode byte equals `op` (R51: mask 0xFF, no sub-fields). -/
def findOperation (op : Byte) : List (Byte × Operation) → Option Operation
  | [] => none
  | (key, o) :: rest => if op = key then some o else findOperation op rest

/-- R82: look an opcode byte up in the dispatch table; `none` is a table miss. -/
def Config.lookup (c : Config) (op : Byte) : Option Operation := findOperation op c.dispatchTable

/-- R52: the opcode byte alone decides how many operand bytes are fetched; after an unknown opcode none are. -/
def Config.operandCount (c : Config) (op : Byte) : Nat :=
  match c.lookup op with
  | none => 0
  | some o => o.mode.operandBytes

/-! ## The decoder -/

/-- Why a byte sequence is no instruction. -/
inductive Reject where
  /-- There is no opcode byte. -/
  | noBytes
  /-- R56: the opcode byte has no entry in the dispatch table. -/
  | unknownOpcode (op : Byte)
  /-- The bytes end before the operand does (R51). -/
  | missingOperand (op : Byte)
  deriving DecidableEq, Repr

/-- What the decoder answers: an instruction and the bytes after it, or a rejection by name. -/
inductive Decoded where
  | instr (i : Instr) (rest : List Byte)
  | rejected (r : Reject)
  deriving DecidableEq, Repr

/-- R53: assemble the operand of operation `o` from the bytes after the opcode byte `op`. -/
def decodeOperand (op : Byte) (o : Operation) (bytes : List Byte) : Decoded :=
  match o, bytes with
  | .ldaImm, b :: rest => .instr (.ldaImm b) rest
  | .ldaZp, b :: rest => .instr (.ldaZp b) rest
  | .ldaZpX, b :: rest => .instr (.ldaZpX b) rest
  | .jsrAbs, lo :: hi :: rest => .instr (.jsrAbs (concatBytes hi lo)) rest
  | .ldaImm, [] => .rejected (.missingOperand op)
  | .ldaZp, [] => .rejected (.missingOperand op)
  | .ldaZpX, [] => .rejected (.missingOperand op)
  | .jsrAbs, [] => .rejected (.missingOperand op)
  | .jsrAbs, [_] => .rejected (.missingOperand op)

/-- R50 to R53, R55: decode the instruction at the head of a byte sequence. -/
def decode (c : Config) (bytes : List Byte) : Decoded :=
  match bytes with
  | [] => .rejected .noBytes
  | op :: rest =>
    match c.lookup op with
    | none => .rejected (.unknownOpcode op)
    | some o => decodeOperand op o rest

/-! ## The encoder -/

/-- The dispatch-table entry an instruction belongs to. -/
def Instr.operation : Instr → Operation
  | .ldaImm _ => .ldaImm
  | .ldaZp _ => .ldaZp
  | .ldaZpX _ => .ldaZpX
  | .jsrAbs _ => .jsrAbs

/-- R51: the bytes of an instruction in ascending address order, opcode first; a word operand is low byte first. -/
def encode (c : Config) : Instr → List Byte
  | .ldaImm imm => [c.opcLdaImm, imm]
  | .ldaZp zp => [c.opcLdaZp, zp]
  | .ldaZpX zp => [c.opcLdaZpX, zp]
  | .jsrAbs target => [c.opcJsr, lowByte target, highByte target]

/-! ## Words of the opcode table -/

/-- The three bytes, in ascending address order, of an instruction whose `nbits` lowest bits are those of `w` and
whose other bits are 0. Bit 0 of `w` is the least significant bit of the first byte; three bytes is the longest
instruction (R50). -/
def tableBytes (nbits w : Nat) : List Byte :=
  let v := w % 2 ^ nbits
  [BitVec.ofNat 8 v, BitVec.ofNat 8 (v / 256), BitVec.ofNat 8 (v / 65536)]

/-- The instruction the decoder reads from a word of the opcode table, under the default opcode bytes of R5. -/
def decodeTableWord (nbits w : Nat) : Option Instr :=
  match decode Config.default (tableBytes nbits w) with
  | .instr i _ => some i
  | .rejected _ => none

end Sys2Proof
end

