-- ==== Sys2Proof/Machine/State.lean ====
section
/-! DEFINITION. The state of one core (rule R10), the reasons a step can stop, and the state after reset (R23, R120).
Memory is data only here; what it reads and how it is written is in Machine/Ops.lean. -/

namespace Sys2Proof.Machine

/-- R17: the seven independent one-bit flags; the spec gives them no packed form. -/
structure Flags where
  /-- Carry. -/
  c : Bool
  /-- Zero. -/
  z : Bool
  /-- Interrupt-disable. -/
  i : Bool
  /-- Decimal. -/
  d : Bool
  /-- Break. -/
  b : Bool
  /-- Overflow. -/
  v : Bool
  /-- Negative. -/
  n : Bool
  deriving DecidableEq, Repr

/-- R19: the sticky fault record, written by `raise` (R104) and cleared by reset only. -/
inductive FaultRecord where
  /-- No fatal error has happened. -/
  | none
  /-- R101: an access at or beyond `MEM_CAPACITY`; `addr` is the address of the failing access itself. -/
  | addressOutOfRange (addr : Word)
  /-- R102: an opcode byte `op` with no dispatch-table entry, fetched from `origin`. -/
  | unknownOpcode (op : Byte) (origin : Word)
  deriving DecidableEq, Repr

/-- R20: the cells of the memory array that do not hold 0x00, as (address, byte) pairs with strictly rising
addresses (`Memory.wf`). -/
abbrev Memory := List Host.Cell

/-- R10: the complete state of one core, and with it (the model's own field, R22) the parameters of R5. -/
@[ext]
structure State where
  /-- The accumulator (R11). -/
  a : Byte
  /-- Index-X (R12). -/
  x : Byte
  /-- Index-Y (R13). -/
  y : Byte
  /-- The program counter (R15). -/
  pc : Word
  /-- The stack pointer, a full memory address (R16). -/
  sp : Word
  /-- The seven flags (R17). -/
  flags : Flags
  /-- The memory array (R20). -/
  mem : Memory
  /-- The remaining cycle budget, an integer that may be negative (R18). -/
  cyc : Int
  /-- The fault record (R19). -/
  fault : FaultRecord
  /-- DESIGN CHOICE (assumption 1): the parameters of R5 travel with the state, so that a claim about every state is a
  claim about every choice of them. No step and no host operation changes them. -/
  config : Config
  deriving DecidableEq, Repr

/-- Why `step` answers no next state. -/
inductive Fault where
  /-- Raised by `step` alone, at a state whose fault record is set: a faulted core executes nothing (R80, R81, R106).
  Safe: it is the spec's own stop. The record says which fatal error it was. -/
  | coreFaulted (record : FaultRecord)
  deriving DecidableEq, Repr

/-- Why an instruction has no meaning in this model. -/
inductive Refusal where
  /-- Answered by an arm of `exec` whose instruction has no meaning yet; no arm of this model does. Safe. -/
  | notModelled (mnemonic : String)
  deriving DecidableEq, Repr

/-- R23: every flag is 0 after reset. -/
def Flags.reset : Flags := ⟨false, false, false, false, false, false, false⟩

/-- R23, R120: the state after `Reset()` of a core with the parameters `c`. -/
def State.resetWith (c : Config) : State where
  a := 0x00#8
  x := 0x00#8
  y := 0x00#8
  pc := c.pcReset
  sp := c.spReset
  flags := Flags.reset
  mem := []
  cyc := 0
  fault := .none
  config := c

/-- The state right after reset, under the default parameters of R5. -/
def State.reset : State := State.resetWith Config.default

end Sys2Proof.Machine
end

