-- ==== Sys2Proof/Machine/Ops.lean ====
section
/-! DEFINITION. The shared operations: named updates of the state, the memory array (R31 to R33), taking a fault (R104),
and the cycle-costing primitives (R65 to R69). -/

namespace Sys2Proof.Machine

/-! ## Named updates -/

/-- `A <- v`. -/
def State.setA (s : State) (v : Byte) : State := { s with a := v }

/-- `X <- v`. -/
def State.setX (s : State) (v : Byte) : State := { s with x := v }

/-- `Y <- v`. -/
def State.setY (s : State) (v : Byte) : State := { s with y := v }

/-- `PC <- w`. -/
def State.setPc (s : State) (w : Word) : State := { s with pc := w }

/-- `SP <- w`. -/
def State.setSp (s : State) (w : Word) : State := { s with sp := w }

/-- Replace the flags record. -/
def State.setFlags (s : State) (f : Flags) : State := { s with flags := f }

/-- Replace the memory array. -/
def State.setMem (s : State) (m : Memory) : State := { s with mem := m }

/-- `cyc <- n`. -/
def State.setCyc (s : State) (n : Int) : State := { s with cyc := n }

/-- `fault <- f`. -/
def State.setFault (s : State) (f : FaultRecord) : State := { s with fault := f }

/-- `cyc <- cyc - 1`, an ordinary integer subtraction (R18, R78). -/
def State.spend (s : State) : State := s.setCyc (s.cyc - 1)

/-! ## The memory array -/

/-- What an address that the list does not hold reads as. R23: "memory zero-filled"; R40: 0x00 if the cell has not
been written since reset. -/
def Memory.unlisted : Byte := 0x00#8

/-- The byte in the cell with address `a`. -/
def Memory.peek (m : Memory) (a : Nat) : Byte :=
  match m with
  | [] => Memory.unlisted
  | (k, b) :: rest => if a = k then b else Memory.peek rest a

/-- Put `cell` in front of `m`, unless it holds what an unlisted address reads as. -/
def Memory.consCell (cell : Host.Cell) (m : Memory) : Memory :=
  if cell.2 = Memory.unlisted then m else cell :: m

/-- The memory in which cell `a` holds `v` and every other cell what it held. -/
def Memory.poke (m : Memory) (a : Nat) (v : Byte) : Memory :=
  match m with
  | [] => Memory.consCell (a, v) []
  | (k, b) :: rest =>
    if a < k then Memory.consCell (a, v) ((k, b) :: rest)
    else if a = k then Memory.consCell (a, v) rest
    else (k, b) :: Memory.poke rest a v

/-- DESIGN CHOICE (assumption 5). The canonical form from address `lo` on: addresses at least `lo`, strictly rising, no byte that an unlisted
address reads as. -/
def Memory.wfFrom (lo : Nat) (m : Memory) : Bool :=
  match m with
  | [] => true
  | (k, b) :: rest => decide (lo ≤ k) && decide (b ≠ Memory.unlisted) && Memory.wfFrom (k + 1) rest

/-- The one canonical form of a memory, in which equal memories are equal data. -/
def Memory.wf (m : Memory) : Bool := Memory.wfFrom 0 m

/-- R30: every listed cell exists, that is, lies below the capacity. -/
def Memory.within (capacity : Nat) (m : Memory) : Bool := m.all fun cell => decide (cell.1 < capacity)

/-- R30, R39: the only check on an access. -/
abbrev State.InRange (s : State) (addr : Word) : Prop := addr.toNat < s.config.memCapacity

/-- `mem[addr]`: the byte a cell holds, without the range check. -/
def State.byteAt (s : State) (addr : Word) : Byte := s.mem.peek addr.toNat

/-! ## Sequencing and faults -/

/-- What a primitive answers: it went on with a value, or it raised a fatal error; either way with the state it left
(R7: a `raise` ends the block at once and nothing after it runs). -/
inductive Res (α : Type) where
  | ok (value : α) (s : State)
  | raised (s : State)
  deriving DecidableEq, Repr

/-- Run `k` after `r`, unless `r` raised. -/
def Res.bind {α β : Type} (r : Res α) (k : α → State → Res β) : Res β :=
  match r with
  | .ok value s => k value s
  | .raised s => .raised s

/-- How an instruction ends. A fatal error is a next state with the fault record set: R104 and R105 say what it
leaves, and `step` then stops at that state (R81; DESIGN CHOICE, assumption 3). -/
def Res.outcome (r : Res Unit) : Host.Outcome State Fault Refusal :=
  match r with
  | .ok _ s => .next s
  | .raised s => .next s

/-- R104: `raise f`. The fault record is written and the primitive, the step and the Execute call end here; nothing is
saved, pushed or redirected. -/
def raise {α : Type} (f : FaultRecord) (s : State) : Res α := .raised (s.setFault f)

/-! ## Raw memory access -/

/-- R31: `MemRead(addr, 1)`. -/
def memRead (addr : Word) (s : State) : Res Byte :=
  if s.InRange addr then .ok (s.byteAt addr) s else raise (.addressOutOfRange addr) s

/-- R32: `MemWrite(addr, 1, v)`, which answers the byte written. -/
def memWrite (addr : Word) (v : Byte) (s : State) : Res Byte :=
  if s.InRange addr then .ok v (s.setMem (s.mem.poke addr.toNat v)) else raise (.addressOutOfRange addr) s

/-! ## Cycle-costing primitives -/

/-- R65: `fetch_byte()`. It does not look at the budget. DEDUCED (assumption 7): a failing read leaves `PC` and `cyc`
(D18). -/
def fetchByte (s : State) : Res Byte :=
  (memRead s.pc s).bind fun b t => .ok b (t.setPc (t.pc + 1#16)).spend

/-- R66: `fetch_word()`, low byte first. -/
def fetchWord (s : State) : Res Word :=
  (fetchByte s).bind fun lo t => (fetchByte t).bind fun hi u => .ok (concatBytes hi lo) u

/-- `count` calls of `fetch_byte` one after another, the bytes in the order fetched. -/
def fetchBytes (count : Nat) (s : State) : Res (List Byte) :=
  match count with
  | 0 => .ok [] s
  | count + 1 => (fetchByte s).bind fun b t => (fetchBytes count t).bind fun rest u => .ok (b :: rest) u

/-- R67: `read_byte(addr)`. -/
def readByte (addr : Word) (s : State) : Res Byte := (memRead addr s).bind fun b t => .ok b t.spend

/-- R68: `write_byte(addr, v)`. -/
def writeByte (addr : Word) (v : Byte) (s : State) : Res Unit := (memWrite addr v s).bind fun _ t => .ok () t.spend

/-- R69: `push_word(w)`: high byte at the old `SP`, low byte below it, `SP` down by 2. DEDUCED (assumption 6): the layout and the
cost are the spec's own decisions D7 and D9. -/
def pushWord (w : Word) (s : State) : Res Unit :=
  (writeByte s.sp (highByte w) s).bind fun _ t =>
    let t := t.setSp (t.sp - 1#16)
    (writeByte t.sp (lowByte w) t).bind fun _ u => .ok () (u.setSp (u.sp - 1#16))

/-! ## Placing bytes from outside -/

/-- Put a byte into a cell, if the cell exists; no cost, no fault (R124: a host write out of range changes nothing). -/
def State.placeByte (s : State) (addr : Word) (v : Byte) : State :=
  if s.InRange addr then s.setMem (s.mem.poke addr.toNat v) else s

/-- Put bytes into consecutive cells at ascending, wrapping addresses (R50). -/
def State.placeBytes (s : State) (addr : Word) (bytes : List Byte) : State :=
  match bytes with
  | [] => s
  | b :: rest => (s.placeByte addr b).placeBytes (addr + 1#16) rest

end Sys2Proof.Machine
end

