-- ==== Sys2Proof/Machine/Jump.lean ====
section
/-! DEFINITION. Subroutine-jump (rules R95 to R97). As in Machine/Load.lean, the meaning runs at the state in which the
instruction's three bytes have been fetched, so `PC` is the return address `a +_16 3`. DEDUCED (assumption 6): that this is the value
pushed is the spec's own decision D8. -/

namespace Sys2Proof.Machine

/-- R95 after the operand fetch: push `PC`, load `PC` with the target, spend the additional cycle. `PC` is loaded
only if both writes succeed. -/
def jumpSubroutine (target : Word) (s : State) : Res Unit :=
  (pushWord s.pc s).bind fun _ t => .ok () (t.setPc target).spend

/-- `JSR abs` (R95). -/
def execJsrAbs (target : Word) (s : State) : Host.Outcome State Fault Refusal := (jumpSubroutine target s).outcome

end Sys2Proof.Machine
end

