-- ==== Sys2Proof/Machine/Flags.lean ====
section
/-! DEFINITION. The flag evaluator (rules R75 to R77). Carry and overflow are computed by nothing (R77). -/

namespace Sys2Proof.Machine

/-- R75: true iff the byte is 0. -/
def zeroFlag (v : Byte) : Bool := decide (v = 0x00#8)

/-- R76: bit 7 of the byte. -/
def negativeFlag (v : Byte) : Bool := v.getLsbD 7

/-- R77: `update_zn(r)`, writing both flags and no other; no cycles. -/
def updateZN (r : Byte) (s : State) : State :=
  s.setFlags { s.flags with z := zeroFlag r, n := negativeFlag r }

end Sys2Proof.Machine
end

