-- ==== Sys2Proof/Machine/Operands.lean ====
section
/-! DEFINITION. The address-mode resolver (rules R70 to R73). A resolver fetches the operand bytes and then uses them; the
second half stands on its own, because a decoded instruction already carries its operand bytes. -/

namespace Sys2Proof.Machine

/-- R71: the effective address of the zero-page mode. -/
def zeroPageAddress (zp : Byte) : Word := zeroExtend16 zp

/-- R72: the effective address of the zero-page-indexed mode: the addition wraps modulo 256, so it never leaves the
zero page. -/
def zeroPageXAddress (zp : Byte) (s : State) : Word := zeroExtend16 (zp + s.x)

/-- R71 after the fetch of `zp`: read the zero-page cell. -/
def zeroPageOperand (zp : Byte) (s : State) : Res Byte := readByte (zeroPageAddress zp) s

/-- R72 after the fetch of `zp`: form the address, spend the index-add cycle, read the cell. -/
def zeroPageXOperand (zp : Byte) (s : State) : Res Byte := readByte (zeroPageXAddress zp s) s.spend

/-- R70: `resolve_immediate()`. -/
def resolveImmediate (s : State) : Res Byte := fetchByte s

/-- R71: `resolve_zero_page()`. -/
def resolveZeroPage (s : State) : Res Byte := (fetchByte s).bind zeroPageOperand

/-- R72: `resolve_zero_page_x()`. -/
def resolveZeroPageX (s : State) : Res Byte := (fetchByte s).bind zeroPageXOperand

/-- R73: `resolve_absolute()`. -/
def resolveAbsolute (s : State) : Res Word := fetchWord s

end Sys2Proof.Machine
end

