-- ==== Sys2Proof/Machine/Load.lean ====
section
/-! DEFINITION. The load-accumulator family (rules R90 to R93). A meaning runs at the state in which the instruction's own
bytes have been fetched: `step` has advanced `PC` past them and deducted one cycle for each (R65). -/

namespace Sys2Proof.Machine

/-- R93: the common effect: `A <- r`, then `Z` and `N` from the new `A`. -/
def loadAccumulator (r : Byte) (s : State) : Res Unit := .ok () (updateZN r (s.setA r))

/-- `LDA #imm` (R90): the operand is the byte itself. -/
def execLdaImm (imm : Byte) (s : State) : Host.Outcome State Fault Refusal := (loadAccumulator imm s).outcome

/-- `LDA zp` (R91): the operand is the zero-page cell `zp`. -/
def execLdaZp (zp : Byte) (s : State) : Host.Outcome State Fault Refusal :=
  ((zeroPageOperand zp s).bind loadAccumulator).outcome

/-- `LDA zp,X` (R92): the operand is the zero-page cell `zp + X` modulo 256. -/
def execLdaZpX (zp : Byte) (s : State) : Host.Outcome State Fault Refusal :=
  ((zeroPageXOperand zp s).bind loadAccumulator).outcome

end Sys2Proof.Machine
end

