-- ==== Sys2Proof/Machine/Fetch.lean ====
section
/-! DEFINITION. Fetching one instruction (rules R52, R54): the opcode byte, then as many operand bytes as the opcode byte
calls for, each by `fetch_byte`, and the decoder on the bytes fetched. -/

namespace Sys2Proof.Machine

/-- What was fetched. -/
inductive Fetched where
  | instr (i : Instr)
  | unknown (op : Byte)
  deriving DecidableEq, Repr

/-- Read the decoder's answer. The operand bytes of a known opcode have all been fetched, so a rejection is a table
miss of the opcode byte `op`. -/
def Fetched.ofDecoded (op : Byte) : Decoded → Fetched
  | .instr i _ => .instr i
  | .rejected _ => .unknown op

/-- Fetch the instruction at `PC`. A failing fetch leaves what the fetches before it did (R105). -/
def fetchInstr (s : State) : Res Fetched :=
  (fetchByte s).bind fun op t =>
    (fetchBytes (s.config.operandCount op) t).bind fun operand u =>
      .ok (Fetched.ofDecoded op (decode s.config (op :: operand))) u

/-- The state after `count` bytes have been fetched without a fault: `PC` past them, one cycle deducted for each. -/
def State.afterFetch (s : State) (count : Nat) : State :=
  (s.setPc (s.pc + BitVec.ofNat 16 count)).setCyc (s.cyc - count)

/-- The bytes in `count` consecutive cells from `addr` on, at ascending, wrapping addresses (R50). -/
def State.bytesFrom (s : State) (addr : Word) (count : Nat) : List Byte :=
  match count with
  | 0 => []
  | count + 1 => s.byteAt addr :: s.bytesFrom (addr + 1#16) count

end Sys2Proof.Machine
end

