-- ==== Sys2Proof/Machine/Unknown.lean ====
section
/-! DEFINITION. Opcode bytes outside the dispatch table (rules R98, R99). -/

namespace Sys2Proof.Machine

/-- `unknown_opcode(op, origin)`, called when the opcode byte has been fetched: under the policy `fault` it raises
(R98), under `nop` there is nothing more to do (R99). DESIGN CHOICE (assumption 11): both policies
are modelled, chosen by the parameter. -/
def unknownOpcode (op : Byte) (origin : Word) (s : State) : Res Unit :=
  match s.config.unknownOpcodePolicy with
  | .fault => raise (.unknownOpcode op origin) s
  | .nop => .ok () s

end Sys2Proof.Machine
end

