-- ==== Sys2Proof/Machine/Step.lean ====
section
/-! DEFINITION. One machine step: `Step()` of rule R83, one whole instruction. It does not test the budget; Execute does
(Machine/Execute.lean, R84). DESIGN CHOICE (assumption 4): `exec` runs a decoded instruction at the state in which its bytes
have been fetched. -/

namespace Sys2Proof.Machine

/-- R83: fetch, decode and run one instruction. `Step()` requires `fault = none`; a faulted core executes nothing
(R81, R106). A failing fetch ends the step with its fault recorded (R105). That a fault is a next state and that
the step after it answers `fault` is DESIGN CHOICE (assumption 3). -/
def step (s : State) : Host.Outcome State Fault Refusal :=
  match s.fault with
  | .none =>
    match fetchInstr s with
    | .raised t => .next t
    | .ok (.instr i) t => exec i t
    | .ok (.unknown op) t => (unknownOpcode op s.pc t).outcome
  | record => .fault (.coreFaulted record)

/-- `s` with the three bytes of a word of the opcode table stored where `step` fetches next, at `PC`: what a host does
when it loads a program (R122; assumption 10). -/
def State.withFetchWord (s : State) (nbits w : Nat) : State := s.placeBytes s.pc (tableBytes nbits w)

end Sys2Proof.Machine
end

