-- ==== Sys2Proof/Machine/StepRule.lean ====
section
/-! DEFINITION. The pseudocode of `Step()` in rule R83, transcribed line by line with the resolvers of R70 to R73, for
comparison with `step`, which first decodes a whole instruction and then runs it. Nothing of the machine calls it. -/

namespace Sys2Proof.Machine

/-- R83: `Step()`, with its precondition `fault = none` left to the caller. -/
def stepRule (s : State) : Res Unit :=
  (fetchByte s).bind fun op t =>
    if op = s.config.opcLdaImm then (resolveImmediate t).bind loadAccumulator
    else if op = s.config.opcLdaZp then (resolveZeroPage t).bind loadAccumulator
    else if op = s.config.opcLdaZpX then (resolveZeroPageX t).bind loadAccumulator
    else if op = s.config.opcJsr then
      (resolveAbsolute t).bind fun target u => (pushWord u.pc u).bind fun _ v => .ok () (v.setPc target).spend
    else unknownOpcode op s.pc t

end Sys2Proof.Machine
end

