-- ==== Sys2Proof/Machine/Execute.lean ====
section
/-! DEFINITION. `Execute(budget)` (rules R81, R84 to R88), the error kinds (R100) and the conditions of the core (R80). -/

namespace Sys2Proof.Machine

/-- R85: the condition named `CycleBudgetExhausted`: `cyc <= 0` at an instruction boundary. -/
abbrev State.BudgetExhausted (s : State) : Prop := s.cyc ≤ 0

/-- R81: the loop of Execute, for at most `fuel` instructions. A step takes at least one cycle or faults (R87), so as
many instructions as there are cycles are enough. -/
def executeLoop (fuel : Nat) (s : State) : Host.Outcome State Fault Refusal :=
  match fuel with
  | 0 => .next s
  | fuel + 1 =>
    if s.BudgetExhausted ∨ s.fault ≠ .none then .next s
    else
      match step s with
      | .next t => executeLoop fuel t
      | .fault r => .fault r
      | .refused r => .refused r

/-- R81: `Execute(budget)`. The budget is loaded afresh; a faulted core executes nothing and keeps its `cyc`.
DEDUCED (assumption 8): the soft budget, the reload and the idle faulted core are the spec's own decisions D4, D5, D20. -/
def execute (budget : Nat) (s : State) : Host.Outcome State Fault Refusal :=
  if s.fault ≠ .none then .next s else executeLoop budget (s.setCyc budget)

/-- R100: the three error kinds. -/
inductive ErrorKind where
  | addressOutOfRange
  | unknownOpcode
  | cycleBudgetExhausted
  deriving DecidableEq, Repr

/-- R100, R103: whether the kind is a fault. -/
def ErrorKind.fatal : ErrorKind → Bool
  | .addressOutOfRange => true
  | .unknownOpcode => true
  | .cycleBudgetExhausted => false

/-- R100: the kind of a fault record. -/
def FaultRecord.kind : FaultRecord → Option ErrorKind
  | .none => Option.none
  | .addressOutOfRange _ => some .addressOutOfRange
  | .unknownOpcode _ _ => some .unknownOpcode

/-- R100: the spec's own numeric codes. -/
def FaultRecord.code : FaultRecord → Nat
  | .none => 0
  | .addressOutOfRange _ => 1
  | .unknownOpcode _ _ => 2

/-- R87, R128: how a run that has returned ended, read from the state: a fault, or the budget spent. -/
def State.endOfRun (s : State) : Option ErrorKind :=
  match s.fault.kind with
  | some kind => some kind
  | none => if s.BudgetExhausted then some .cycleBudgetExhausted else none

/-- R80: the three conditions of a core. -/
inductive Condition where
  | idle
  | running
  | faulted
  deriving DecidableEq, Repr

/-- R80: the condition is a function of the state and of whether an Execute call is in progress. -/
def State.condition (s : State) (executing : Bool) : Condition :=
  match s.fault with
  | .none => if executing then .running else .idle
  | .addressOutOfRange _ => .faulted
  | .unknownOpcode _ _ => .faulted

end Sys2Proof.Machine
end

