-- ==== Sys2Proof/Machine/External.lean ====
section
/-! DEFINITION. The external interface (rules R124 to R128): what the host can ask of the core between Execute calls. The
host has no move while the core runs (R126), so a request is one function of the state. DESIGN CHOICE (assumption 9):
a request the spec does not allow is rejected by name. -/

namespace Sys2Proof.Machine

/-- R124, R127: a host write of one register or flag, with a value of its width. `cyc` and `fault` cannot be written. -/
inductive RegWrite where
  | a (v : Byte)
  | x (v : Byte)
  | y (v : Byte)
  | pc (v : Word)
  | sp (v : Word)
  | c (v : Bool)
  | z (v : Bool)
  | i (v : Bool)
  | d (v : Bool)
  | b (v : Bool)
  | v (v : Bool)
  | n (v : Bool)
  deriving DecidableEq, Repr

/-- R124: the operations of the interface. -/
inductive Request where
  | reset
  | execute (budget : Nat)
  | writeMem (addr : Nat) (v : Byte)
  | readMem (addr : Nat)
  | writeReg (w : RegWrite)
  | readState
  deriving DecidableEq, Repr

/-- Why a request is rejected; a rejected request changes nothing and is the host's error, not a core fault (R124). -/
inductive Rejection where
  /-- R127: while the core is faulted the host may only read, or reset. -/
  | coreFaulted
  /-- R124: the address is `>= MEM_CAPACITY`. -/
  | addressOutOfRange
  /-- R81: the budget is no unsigned `BUDGET_WIDTH`-bit number. DESIGN CHOICE (assumption 8). -/
  | budgetTooWide
  /-- Execute stopped without returning; R87 says that it never does. -/
  | executeStopped
  deriving DecidableEq, Repr

/-- R124: what `HostReadState()` returns. -/
structure View where
  a : Byte
  x : Byte
  y : Byte
  pc : Word
  sp : Word
  flags : Flags
  cyc : Int
  fault : FaultRecord
  deriving DecidableEq, Repr

/-- What the host gets back. Execute itself returns no value (R128). -/
inductive Reply where
  | done
  | byte (v : Byte)
  | view (v : View)
  | rejected (r : Rejection)
  deriving DecidableEq, Repr

/-- R124: `HostReadState()`. -/
def State.view (s : State) : View := ⟨s.a, s.x, s.y, s.pc, s.sp, s.flags, s.cyc, s.fault⟩

/-- R124, R127: `HostWriteReg(name, v)`. -/
def applyRegWrite (w : RegWrite) (s : State) : State :=
  match w with
  | .a v => s.setA v
  | .x v => s.setX v
  | .y v => s.setY v
  | .pc v => s.setPc v
  | .sp v => s.setSp v
  | .c v => s.setFlags { s.flags with c := v }
  | .z v => s.setFlags { s.flags with z := v }
  | .i v => s.setFlags { s.flags with i := v }
  | .d v => s.setFlags { s.flags with d := v }
  | .b v => s.setFlags { s.flags with b := v }
  | .v v => s.setFlags { s.flags with v := v }
  | .n v => s.setFlags { s.flags with n := v }

/-- R120: `Reset()` of an existing core. It reads no state but the parameters, and erases memory (R121). -/
def resetCore (s : State) : State := State.resetWith s.config

/-- R124: one host request, answered with a reply and the state it leaves. -/
def request (q : Request) (s : State) : Reply × State :=
  match q with
  | .reset => (.done, resetCore s)
  | .execute budget =>
    if budget < 2 ^ s.config.budgetWidth then
      match execute budget s with
      | .next t => (.done, t)
      | .fault _ => (.rejected .executeStopped, s)
      | .refused _ => (.rejected .executeStopped, s)
    else (.rejected .budgetTooWide, s)
  | .writeMem addr v =>
    if s.fault ≠ .none then (.rejected .coreFaulted, s)
    else if addr < s.config.memCapacity then (.done, s.setMem (s.mem.poke addr v))
    else (.rejected .addressOutOfRange, s)
  | .readMem addr =>
    if addr < s.config.memCapacity then (.byte (s.mem.peek addr), s) else (.rejected .addressOutOfRange, s)
  | .writeReg w => if s.fault ≠ .none then (.rejected .coreFaulted, s) else (.done, applyRegWrite w s)
  | .readState => (.view s.view, s)

end Sys2Proof.Machine
end

