-- ==== Sys2Proof/Safety.lean ====
section
/-! DEFINITION. What claims call a good state and a good run. -/

namespace Sys2Proof.Machine

/-- The invariant of a core: legal parameters (R5), memory in its canonical form, and no cell at or beyond the
capacity (R20, R30). The widths of R14 are in the types. -/
structure State.Inv (s : State) : Prop where
  configWf : s.config.wf = true
  memWf : s.mem.wf = true
  memWithin : s.mem.within s.config.memCapacity = true

/-- R87: an Execute call that has returned is over: the core faulted, or the budget is spent. -/
def State.RunEnded (s : State) : Prop := s.fault ≠ .none ∨ s.BudgetExhausted

/-- `k` steps that all answer a next state and leave the core unfaulted: a run that counts as a good one (R105: "a
faulted state is never a successful end of a run"). -/
def CleanRun (k : Nat) (s t : State) : Prop := core.run k s = .next t ∧ t.fault = .none

end Sys2Proof.Machine
end

