-- ==== Sys2Proof/Certificates/Slice0/Obligations.lean ====
section
/-! DEFINITION. The statements for the provers. Each docstring names the rules of spec/ behind it, and, where a clause rests
on a decision the spec marks as its own (D<n> of 92_eei_decisions.md) or on the model's own choice, the decision and the
entry of the assumption log. A statement about every state holds for every choice of the parameters of rule R5, which
travel with the state (assumption 1). -/

open Sys2Proof Sys2Proof.Machine

/-! ## Encoding -/

/-- Formats of R51 and R53: words written out byte by byte, under the default opcode bytes of R5, of which 0xA5, 0xB5 and
0x20 are the spec's own decision D12 (assumption 2). -/
def Obligations.WrittenWordsDecode : Prop :=
  decode Config.default [0xA9#8, 0x42#8] = .instr (.ldaImm 0x42#8) [] ∧
  decode Config.default [0xA5#8, 0x10#8, 0xFF#8] = .instr (.ldaZp 0x10#8) [0xFF#8] ∧
  decode Config.default [0xB5#8, 0x80#8] = .instr (.ldaZpX 0x80#8) [] ∧
  decode Config.default [0x20#8, 0x34#8, 0x12#8] = .instr (.jsrAbs 0x1234#16) [] ∧
  decodeTableWord 24 0x123420 = some (.jsrAbs 0x1234#16) ∧
  decode Config.default [0xEA#8, 0xA9#8, 0x01#8] = .rejected (.unknownOpcode 0xEA#8) ∧
  decode Config.default [0x20#8, 0x34#8] = .rejected (.missingOperand 0x20#8)

/-- R51, R53, R55: no bit of an encoding is dropped, whatever bytes follow. -/
def Obligations.DecodeOfEncode : Prop :=
  ∀ (c : Config) (i : Instr) (rest : List Byte), c.wf = true → decode c (encode c i ++ rest) = .instr i rest

/-- R51, R53, R55: each instruction has one encoding: what decodes to `i` is the encoding of `i` and the rest. -/
def Obligations.EncodeOfDecode : Prop :=
  ∀ (c : Config) (bytes rest : List Byte) (i : Instr), decode c bytes = .instr i rest → encode c i ++ rest = bytes

/-- R55, R56: a byte is rejected as an unknown opcode exactly when it is none of the four opcode bytes. -/
def Obligations.OnlyFourOpcodesAreKnown : Prop :=
  ∀ (c : Config) (op : Byte) (rest : List Byte),
    decode c (op :: rest) = .rejected (.unknownOpcode op) ↔
      op ≠ c.opcLdaImm ∧ op ≠ c.opcLdaZp ∧ op ≠ c.opcLdaZpX ∧ op ≠ c.opcJsr

/-- Formats of R51, R52 and R57: the opcode byte alone decides the length: under legal parameters the loads take one operand byte, the
jump two, and decoding consumes exactly those and fails for want of bytes exactly when they are not there. -/
def Obligations.OpcodeAloneDecidesLength : Prop :=
  ∀ (c : Config) (op : Byte) (bytes : List Byte), c.wf = true →
    let count := if op = c.opcJsr then 2 else 1
    (op = c.opcLdaImm ∨ op = c.opcLdaZp ∨ op = c.opcLdaZpX ∨ op = c.opcJsr) →
      (decode c (op :: bytes) = .rejected (.missingOperand op) ↔ bytes.length < count) ∧
      (count ≤ bytes.length → ∃ i, decode c (op :: bytes) = .instr i (bytes.drop count))

/-! ## The memory array -/

/-- R31, R32, R33: what a read and a write answer, read after write, every other cell kept, and the fault of every access
out of range, which changes no cell. -/
def Obligations.MemoryReadAfterWrite : Prop :=
  ∀ (s : State) (addr : Word) (v : Byte), s.mem.wf = true →
    (s.InRange addr → memRead addr s = .ok (s.byteAt addr) s ∧
      ∃ t : State, memWrite addr v s = .ok v t ∧ memRead addr t = .ok v t ∧
      t = { s with mem := t.mem } ∧ ∀ other : Word, other ≠ addr → t.byteAt other = s.byteAt other) ∧
    (¬ s.InRange addr →
      memRead addr s = .raised { s with fault := .addressOutOfRange addr } ∧
      memWrite addr v s = .raised { s with fault := .addressOutOfRange addr })

/-- The model's own form of the array of R20 (assumption 5): it is what its cells hold, that is, two memories in the
canonical form that read alike are equal. -/
def Obligations.CanonicalMemoriesThatReadAlikeAreEqual : Prop :=
  ∀ m m' : Memory, m.wf = true → m'.wf = true → (∀ addr : Nat, m.peek addr = m'.peek addr) → m = m'

/-! ## The primitives -/

/-- `fetch_byte` of R65; that a failing read leaves `PC` and `cyc` alone is the spec's own decision D18 (assumption 7). -/
def Obligations.FetchByteLaw : Prop :=
  ∀ s : State,
    (s.InRange s.pc → fetchByte s = .ok (s.byteAt s.pc) { s with pc := s.pc + 1#16, cyc := s.cyc - 1 }) ∧
    (¬ s.InRange s.pc → fetchByte s = .raised { s with fault := .addressOutOfRange s.pc })

/-- `fetch_word` of R66: the two bytes make the word with the low byte at the lower address. That the low byte is read
first, and that its fetch stays done when the high byte's fails, is the spec's own decision D18 (assumption 7). -/
def Obligations.FetchWordLaw : Prop :=
  ∀ s : State,
    (s.InRange s.pc → s.InRange (s.pc + 1#16) → ∃ w : Word,
      w.toNat = (s.byteAt (s.pc + 1#16)).toNat * 256 + (s.byteAt s.pc).toNat ∧
      fetchWord s = .ok w { s with pc := s.pc + 2#16, cyc := s.cyc - 2 }) ∧
    (s.InRange s.pc → ¬ s.InRange (s.pc + 1#16) →
      fetchWord s = .raised
        { s with pc := s.pc + 1#16, cyc := s.cyc - 1, fault := .addressOutOfRange (s.pc + 1#16) }) ∧
    (¬ s.InRange s.pc → fetchWord s = .raised { s with fault := .addressOutOfRange s.pc })

/-- `read_byte` of R67 and `write_byte` of R68: `PC` is untouched, and a failing access changes nothing but the fault record
(the spec's own decision D18, assumption 7). The cycle of a write is its decision D9 (assumption 6). -/
def Obligations.ReadAndWriteByteLaws : Prop :=
  ∀ (s : State) (addr : Word) (v : Byte), s.mem.wf = true →
    (s.InRange addr →
      readByte addr s = .ok (s.byteAt addr) { s with cyc := s.cyc - 1 } ∧
      ∃ t : State, writeByte addr v s = .ok () t ∧ t = { s with mem := t.mem, cyc := s.cyc - 1 } ∧
        ∀ other : Word, t.byteAt other = if other = addr then v else s.byteAt other) ∧
    (¬ s.InRange addr →
      readByte addr s = .raised { s with fault := .addressOutOfRange addr } ∧
      writeByte addr v s = .raised { s with fault := .addressOutOfRange addr })

/-- `push_word` of R69: high byte at the old `SP`, low byte below it, little-endian at the new `SP` plus 1, `SP` down by 2
and wrapping; if the second write raises, the first stays done. The layout, the cost and the state at a fault are the
spec's own decisions D7, D9, D18 (assumptions 6 and 7). -/
def Obligations.PushWordLaw : Prop :=
  ∀ (s : State) (w : Word), s.mem.wf = true →
    (s.InRange s.sp → s.InRange (s.sp - 1#16) → ∃ t : State, pushWord w s = .ok () t ∧
      t = { s with mem := t.mem, sp := s.sp - 2#16, cyc := s.cyc - 2 } ∧
      t.byteAt s.sp = w.extractLsb' 8 8 ∧ t.byteAt (s.sp - 1#16) = w.extractLsb' 0 8 ∧
      (t.byteAt (t.sp + 2#16)).toNat * 256 + (t.byteAt (t.sp + 1#16)).toNat = w.toNat ∧
      ∀ other : Word, other ≠ s.sp → other ≠ s.sp - 1#16 → t.byteAt other = s.byteAt other) ∧
    (s.InRange s.sp → ¬ s.InRange (s.sp - 1#16) → ∃ t : State, pushWord w s = .raised t ∧
      t = { s with mem := t.mem, sp := s.sp - 1#16, cyc := s.cyc - 1,
                   fault := .addressOutOfRange (s.sp - 1#16) } ∧
      ∀ other : Word, t.byteAt other = if other = s.sp then w.extractLsb' 8 8 else s.byteAt other) ∧
    (¬ s.InRange s.sp → pushWord w s = .raised { s with fault := .addressOutOfRange s.sp })

/-- From R70, R71, R73: the immediate, zero-page and absolute resolvers, with `PC` at the first operand byte: the operand, the
cost, what `PC` advances by, and the fault of each access. That a failing fetch or read leaves `PC` and `cyc` alone, and that
what was done before it stays done, is the spec's own decision D18 (assumption 7). -/
def Obligations.ResolverLaws : Prop :=
  ∀ s : State,
    (s.InRange s.pc →
      resolveImmediate s = .ok (s.byteAt s.pc) { s with pc := s.pc + 1#16, cyc := s.cyc - 1 } ∧
      ∀ ea : Word, ea.toNat = (s.byteAt s.pc).toNat →
        (s.InRange ea →
          resolveZeroPage s = .ok (s.byteAt ea) { s with pc := s.pc + 1#16, cyc := s.cyc - 2 }) ∧
        (¬ s.InRange ea → resolveZeroPage s = .raised
          { s with pc := s.pc + 1#16, cyc := s.cyc - 1, fault := .addressOutOfRange ea })) ∧
    (¬ s.InRange s.pc →
      resolveImmediate s = .raised { s with fault := .addressOutOfRange s.pc } ∧
      resolveZeroPage s = .raised { s with fault := .addressOutOfRange s.pc } ∧
      resolveAbsolute s = .raised { s with fault := .addressOutOfRange s.pc }) ∧
    (s.InRange s.pc → ¬ s.InRange (s.pc + 1#16) → resolveAbsolute s = .raised
      { s with pc := s.pc + 1#16, cyc := s.cyc - 1, fault := .addressOutOfRange (s.pc + 1#16) }) ∧
    (s.InRange s.pc → s.InRange (s.pc + 1#16) → ∀ w : Word,
      w.toNat = (s.byteAt (s.pc + 1#16)).toNat * 256 + (s.byteAt s.pc).toNat →
      resolveAbsolute s = .ok w { s with pc := s.pc + 2#16, cyc := s.cyc - 2 })

/-- From R72: the zero-page-indexed resolver: the index addition wraps modulo 256, so the address stays in the zero page, and
it costs a cycle, which is spent even when the read raises. That a failing fetch or read itself changes nothing, `PC` and
`cyc` included, is the spec's own decision D18 (assumption 7). -/
def Obligations.IndexedResolverWrapsInZeroPage : Prop :=
  ∀ (s : State) (ea : Word), ea.toNat = ((s.byteAt s.pc).toNat + s.x.toNat) % 256 →
    (¬ s.InRange s.pc → resolveZeroPageX s = .raised { s with fault := .addressOutOfRange s.pc }) ∧
    (s.InRange s.pc → s.InRange ea → resolveZeroPageX s = .ok (s.byteAt ea) { s with pc := s.pc + 1#16, cyc := s.cyc - 3 }) ∧
    (s.InRange s.pc → ¬ s.InRange ea → resolveZeroPageX s = .raised
      { s with pc := s.pc + 1#16, cyc := s.cyc - 2, fault := .addressOutOfRange ea })

/-- R75, R76: the flag evaluator; and the update of R77, which writes both flags, nothing else, and never both to 1. -/
def Obligations.FlagEvaluatorLaws : Prop :=
  ∀ (v : Byte) (s : State),
    (zeroFlag v = true ↔ v.toNat = 0) ∧ (negativeFlag v = true ↔ 128 ≤ v.toNat) ∧
    updateZN v s = { s with flags := { s.flags with z := zeroFlag v, n := negativeFlag v } } ∧
    ¬ ((updateZN v s).flags.z = true ∧ (updateZN v s).flags.n = true)

/-! ## The meanings -/

/-- The effect of R90 to R93: where each load completes, and with what. The state is the one in which the instruction's
bytes have been fetched, the model's own division of the work (assumption 4), so the cycles are those beyond the
fetches. -/
def Obligations.LoadsComplete : Prop :=
  ∀ (s : State) (b : Byte), s.fault = .none →
    exec (.ldaImm b) s = .next { s with a := b, flags := { s.flags with z := decide (b = 0#8), n := b.msb } } ∧
    (∀ ea : Word, ea.toNat = b.toNat → s.InRange ea →
      exec (.ldaZp b) s = .next { s with
        a := s.byteAt ea, flags := { s.flags with z := decide (s.byteAt ea = 0#8), n := (s.byteAt ea).msb },
        cyc := s.cyc - 1 }) ∧
    (∀ ea : Word, ea.toNat = (b.toNat + s.x.toNat) % 256 → s.InRange ea →
      exec (.ldaZpX b) s = .next { s with
        a := s.byteAt ea, flags := { s.flags with z := decide (s.byteAt ea = 0#8), n := (s.byteAt ea).msb },
        cyc := s.cyc - 2 })

/-- The effect of R95: where subroutine-jump completes, and with what, for every target. `PC` at entry, past the fetched
bytes (assumption 4), is the return address; its value, its two cells and the cycles of the writes are the spec's own
decisions D7, D8, D9 (assumption 6). -/
def Obligations.SubroutineJumpCompletes : Prop :=
  ∀ (s : State) (target : Word), s.fault = .none → s.mem.wf = true → s.InRange s.sp → s.InRange (s.sp - 1#16) →
    ∃ t : State, exec (.jsrAbs target) s = .next t ∧
      t = { s with mem := t.mem, sp := s.sp - 2#16, pc := target, cyc := s.cyc - 3 } ∧
      t.byteAt s.sp = s.pc.extractLsb' 8 8 ∧ t.byteAt (s.sp - 1#16) = s.pc.extractLsb' 0 8 ∧
      ∀ other : Word, other ≠ s.sp → other ≠ s.sp - 1#16 → t.byteAt other = s.byteAt other

/-- What R90 to R93 leave unchanged: the frame of the three loads, for every form and every outcome: `X`, `Y`, `SP`, the flags but `Z` and
`N`, every byte of memory and the parameters are unchanged; if the data read faults, so are `A`, `Z` and `N`, and the
fault record holds the effective address. -/
def Obligations.LoadsFrame : Prop :=
  ∀ (i : Instr) (s t : State), (∃ b : Byte, i = .ldaImm b ∨ i = .ldaZp b ∨ i = .ldaZpX b) → exec i s = .next t →
    t.x = s.x ∧ t.y = s.y ∧ t.sp = s.sp ∧ t.pc = s.pc ∧ t.config = s.config ∧
    t.flags = { s.flags with z := t.flags.z, n := t.flags.n } ∧
    (∀ addr : Word, t.byteAt addr = s.byteAt addr) ∧
    (t.fault = s.fault ∨
      t.a = s.a ∧ t.flags = s.flags ∧
      ((∃ b : Byte, i = .ldaZp b ∧ t.fault = .addressOutOfRange (zeroPageAddress b)) ∨
        (∃ b : Byte, i = .ldaZpX b ∧ t.fault = .addressOutOfRange (zeroPageXAddress b s))))

/-- What R95 leaves unchanged: the frame of subroutine-jump, for every outcome: `A`, `X`, `Y`, all seven flags and the
parameters are unchanged, and so is every byte of memory but the two the push stores to, at the `SP` before and one below
it (the spec's own decision D7, assumption 6). `SP` and `PC` change, and `cyc`. -/
def Obligations.SubroutineJumpFrame : Prop :=
  ∀ (target : Word) (s t : State), exec (.jsrAbs target) s = .next t →
    t.a = s.a ∧ t.x = s.x ∧ t.y = s.y ∧ t.flags = s.flags ∧ t.config = s.config ∧
    (t.fault = s.fault ∨
      t.fault = .addressOutOfRange s.sp ∧ t.sp = s.sp ∧ t.pc = s.pc ∨
      t.fault = .addressOutOfRange (s.sp - 1#16) ∧ t.sp = s.sp - 1#16 ∧ t.pc = s.pc) ∧
    ∀ addr : Word, addr ≠ s.sp → addr ≠ s.sp - 1#16 → t.byteAt addr = s.byteAt addr

/-! ## Whole instructions: one step, fetches and faults included -/

/-- From R90: `LDA #imm`, with `a` the address of the opcode byte: the effect and every fault. The state at a fetch that
faults is the spec's own decision D18 (assumption 7); that a fault is a next state with the record set rests on its decision
D10 and the model's own choice (assumption 3). -/
def Obligations.StepLoadImmediate : Prop :=
  ∀ s : State, s.fault = .none →
    let a := s.pc
    let r := s.byteAt (a + 1#16)
    (¬ s.InRange a → step s = .next { s with fault := .addressOutOfRange a }) ∧
    (s.InRange a → s.byteAt a = s.config.opcLdaImm →
      (¬ s.InRange (a + 1#16) → step s = .next
        { s with pc := a + 1#16, cyc := s.cyc - 1, fault := .addressOutOfRange (a + 1#16) }) ∧
      (s.InRange (a + 1#16) → step s = .next
        { s with a := r, flags := { s.flags with z := decide (r = 0#8), n := r.msb },
                 pc := a + 2#16, cyc := s.cyc - 2 }))

/-- From R91: `LDA zp`: the effect and every fault. The state at an access that faults is the spec's own decision D18
(assumption 7), stated by R91 itself for the data read only; that a fault is a next state with the record set rests on its
decision D10 and the model's own choice (assumption 3). -/
def Obligations.StepLoadZeroPage : Prop :=
  ∀ (s : State) (ea : Word), s.fault = .none → s.config.wf = true →
    let a := s.pc
    let r := s.byteAt ea
    (¬ s.InRange a → step s = .next { s with fault := .addressOutOfRange a }) ∧
    (s.InRange a → s.byteAt a = s.config.opcLdaZp →
      (¬ s.InRange (a + 1#16) → step s = .next
        { s with pc := a + 1#16, cyc := s.cyc - 1, fault := .addressOutOfRange (a + 1#16) }) ∧
      (s.InRange (a + 1#16) → ea.toNat = (s.byteAt (a + 1#16)).toNat →
        (¬ s.InRange ea → step s = .next
          { s with pc := a + 2#16, cyc := s.cyc - 2, fault := .addressOutOfRange ea }) ∧
        (s.InRange ea → step s = .next
          { s with a := r, flags := { s.flags with z := decide (r = 0#8), n := r.msb },
                   pc := a + 2#16, cyc := s.cyc - 3 })))

/-- From R92: `LDA zp,X`: the effect and every fault; the effective address is `(zp + X) mod 256`. The state at an access
that faults is the spec's own decision D18 (assumption 7), of which R92 itself gives only the three cycles at the data read;
that a fault is a next state with the record set rests on its decision D10 and the model's own choice (assumption 3). -/
def Obligations.StepLoadZeroPageIndexed : Prop :=
  ∀ (s : State) (ea : Word), s.fault = .none → s.config.wf = true →
    let a := s.pc
    let r := s.byteAt ea
    (¬ s.InRange a → step s = .next { s with fault := .addressOutOfRange a }) ∧
    (s.InRange a → s.byteAt a = s.config.opcLdaZpX →
      (¬ s.InRange (a + 1#16) → step s = .next
        { s with pc := a + 1#16, cyc := s.cyc - 1, fault := .addressOutOfRange (a + 1#16) }) ∧
      (s.InRange (a + 1#16) → ea.toNat = ((s.byteAt (a + 1#16)).toNat + s.x.toNat) % 256 →
        (¬ s.InRange ea → step s = .next
          { s with pc := a + 2#16, cyc := s.cyc - 3, fault := .addressOutOfRange ea }) ∧
        (s.InRange ea → step s = .next
          { s with a := r, flags := { s.flags with z := decide (r = 0#8), n := r.msb },
                   pc := a + 2#16, cyc := s.cyc - 4 })))

/-- The whole of R95, with the state at each fault as in R105's table: `JSR abs`, with `a` the address of the opcode byte and `ret = a + 3`: the effect, and the state at each
of the five faults, in the order they can occur. The stored bytes are the two cells at `SP` and `SP - 1`. The layout, the value pushed, the
cost of a write and the state at a fault are the spec's own decisions D7, D8, D9, D10, D18 (assumptions 6 and 7). -/
def Obligations.StepSubroutineJump : Prop :=
  ∀ (s : State) (target : Word), s.fault = .none → s.config.wf = true → s.mem.wf = true →
    let a := s.pc
    let ret := a + 3#16
    (¬ s.InRange a → step s = .next { s with fault := .addressOutOfRange a }) ∧
    (s.InRange a → s.byteAt a = s.config.opcJsr →
      (¬ s.InRange (a + 1#16) → step s = .next
        { s with pc := a + 1#16, cyc := s.cyc - 1, fault := .addressOutOfRange (a + 1#16) }) ∧
      (s.InRange (a + 1#16) → ¬ s.InRange (a + 2#16) → step s = .next
        { s with pc := a + 2#16, cyc := s.cyc - 2, fault := .addressOutOfRange (a + 2#16) }) ∧
      (s.InRange (a + 1#16) → s.InRange (a + 2#16) →
        target.toNat = (s.byteAt (a + 2#16)).toNat * 256 + (s.byteAt (a + 1#16)).toNat →
        (¬ s.InRange s.sp → step s = .next
          { s with pc := a + 3#16, cyc := s.cyc - 3, fault := .addressOutOfRange s.sp }) ∧
        (s.InRange s.sp → ¬ s.InRange (s.sp - 1#16) → ∃ t : State, step s = .next t ∧
          t = { s with pc := a + 3#16, cyc := s.cyc - 4, sp := s.sp - 1#16, mem := t.mem,
                       fault := .addressOutOfRange (s.sp - 1#16) } ∧
          ∀ other : Word, t.byteAt other = if other = s.sp then ret.extractLsb' 8 8 else s.byteAt other) ∧
        (s.InRange s.sp → s.InRange (s.sp - 1#16) → ∃ t : State, step s = .next t ∧
          t = { s with pc := target, cyc := s.cyc - 6, sp := s.sp - 2#16, mem := t.mem } ∧
          t.byteAt s.sp = ret.extractLsb' 8 8 ∧ t.byteAt (s.sp - 1#16) = ret.extractLsb' 0 8 ∧
          ∀ other : Word, other ≠ s.sp → other ≠ s.sp - 1#16 → t.byteAt other = s.byteAt other)))

/-- The property of R96: whenever a step on a subroutine-jump leaves the core unfaulted, `PC` is the target, `SP` moved
down by exactly 2, and the return address is the word at the new `SP` plus 1. Its place and its value are the spec's own
decisions D7 and D8 (assumption 6). -/
def Obligations.ReturnAddressIsRecoverable : Prop :=
  ∀ s t : State, s.fault = .none → s.Inv → s.byteAt s.pc = s.config.opcJsr → step s = .next t → t.fault = .none →
    t.pc.toNat = (s.byteAt (s.pc + 2#16)).toNat * 256 + (s.byteAt (s.pc + 1#16)).toNat ∧
    t.sp = s.sp - 2#16 ∧
    (t.byteAt (t.sp + 2#16)).toNat * 256 + (t.byteAt (t.sp + 1#16)).toNat = (s.pc + 3#16).toNat

/-- An unknown opcode under the policy `fault` (R98), and the fault of its own fetch. That the opcode fetch stays done is
the spec's own decision D19 (assumption 7). -/
def Obligations.UnknownOpcodeFaults : Prop :=
  ∀ s : State, s.fault = .none → s.config.unknownOpcodePolicy = .fault →
    (¬ s.InRange s.pc → step s = .next { s with fault := .addressOutOfRange s.pc }) ∧
    (s.InRange s.pc → s.config.lookup (s.byteAt s.pc) = none → step s = .next
      { s with pc := s.pc + 1#16, cyc := s.cyc - 1, fault := .unknownOpcode (s.byteAt s.pc) s.pc })

/-- From R99: an unknown opcode under the policy `nop`; and its corner case: Execute walks one byte and one cycle at a time
over `n` zero bytes. The policy is the spec's own decision D6 (assumption 11). That a fetch out of range changes nothing but
the fault record is its decision D18 (assumption 7), and that this is a next state rests on its decision D10 and the model's
own choice (assumption 3). -/
def Obligations.UnknownOpcodeIsOneCycleNop : Prop :=
  ∀ s : State, s.fault = .none → s.config.unknownOpcodePolicy = .nop →
    (¬ s.InRange s.pc → step s = .next { s with fault := .addressOutOfRange s.pc }) ∧
    (s.InRange s.pc → s.config.lookup (s.byteAt s.pc) = none →
      step s = .next { s with pc := s.pc + 1#16, cyc := s.cyc - 1 }) ∧
    ∀ n : Nat, s.config.lookup 0x00#8 = none →
      (∀ k : Nat, k < n → s.InRange (s.pc + BitVec.ofNat 16 k) ∧ s.byteAt (s.pc + BitVec.ofNat 16 k) = 0x00#8) →
      execute n s = .next { s with pc := s.pc + BitVec.ofNat 16 n, cyc := 0 }

/-! ## The step as a whole -/

/-- A step runs the decoded instruction (R52, R54, R83): it fetches as many bytes as the instruction has, one cycle each,
and is then `exec` of it, the model's own division of the work (assumption 4). -/
def Obligations.StepRunsTheDecodedInstruction : Prop :=
  ∀ (s : State) (i : Instr) (rest : List Byte), s.fault = .none →
    decode s.config (s.bytesFrom s.pc 3) = .instr i rest →
    (∀ k : Nat, k < i.operation.length → s.InRange (s.pc + BitVec.ofNat 16 k)) →
    step s = exec i { s with pc := s.pc + BitVec.ofNat 16 i.operation.length, cyc := s.cyc - i.operation.length }

/-- On an unfaulted core the step is the pseudocode of R83, line by line, on which the spec's own decisions D7 to D10, D18
and D19 bear (assumptions 6 and 7). -/
def Obligations.StepRefinesTheRulesPseudocode : Prop :=
  ∀ s : State, s.fault = .none → step s = (stepRule s).outcome

/-- The model's invariant (R5, R20, R30; assumptions 1 and 5): every step keeps the parameters legal, the memory canonical and inside the capacity. -/
def Obligations.StepKeepsInvariant : Prop :=
  ∀ s t : State, s.Inv → step s = .next t → t.Inv

/-- The model's invariant (assumptions 1 and 5) holds after reset, for every legal choice of the parameters. -/
def Obligations.ResetMeetsInvariant : Prop :=
  State.reset.Inv ∧ ∀ c : Config, c.wf = true → (State.resetWith c).Inv

/-- A step answers a next state exactly on an unfaulted core, which is idle or running and not faulted (R80), and refuses
nothing. The sticky fault record is the spec's own decision D10 (assumption 3). -/
def Obligations.StepIsDefinedExactlyWhenUnfaulted : Prop :=
  ∀ s : State,
    ((∃ t : State, step s = .next t) ↔ s.fault = .none) ∧ (∀ r : Refusal, step s ≠ .refused r) ∧
    (s.condition true = .running ↔ s.fault = .none) ∧ (s.condition false = .idle ↔ s.fault = .none) ∧
    ∀ executing : Bool, s.condition executing = .faulted ↔ s.fault ≠ .none

/-- Read off the instruction set (R12, R13, R17; R22 for the parameters, assumption 1): no step, whatever it runs and however it ends, changes `X`, `Y`, the flags `C`, `I`, `D`, `B`,
`V` or the parameters. -/
def Obligations.NoStepWritesIndexRegistersOrInertFlags : Prop :=
  ∀ s t : State, step s = .next t →
    t.x = s.x ∧ t.y = s.y ∧ t.flags.c = s.flags.c ∧ t.flags.i = s.flags.i ∧ t.flags.d = s.flags.d ∧
    t.flags.b = s.flags.b ∧ t.flags.v = s.flags.v ∧ t.config = s.config

/-- Read off the instruction set (R11, R13, R17): no instruction reads `A`, `Y` or any flag. Of two states that differ only in
these, either both step with all of these kept and the rest alike, or both step to the same `A`, `Z` and `N` with `Y` and
the other flags kept and the rest alike; so nothing a step writes, `A` and the flags included, depends on them. -/
def Obligations.NoStepReadsAccumulatorYOrFlags : Prop :=
  ∀ (s t : State) (a y : Byte) (f : Flags), step s = .next t →
    (step { s with a := a, y := y, flags := f } = .next { t with a := a, y := y, flags := f } ∧
      t.a = s.a ∧ t.flags = s.flags) ∨
    step { s with a := a, y := y, flags := f } =
      .next { t with y := y, flags := { f with z := t.flags.z, n := t.flags.n } }

/-- Read off the instruction set (R136): no instruction reads `cyc`: with another count the step does the same and deducts the same. -/
def Obligations.NoStepReadsTheCycleCount : Prop :=
  ∀ (s t : State) (n : Int), step s = .next t → step { s with cyc := n } = .next { t with cyc := n - (s.cyc - t.cyc) }

/-- From the access table of R37: `LDA zp,X` reads its two bytes and the cell at the effective address, and no other: any memory that
agrees there gives the same step, and keeps its own cells. -/
def Obligations.IndexedLoadReadsOnlyItsCells : Prop :=
  ∀ (s t : State) (m : Memory), s.config.wf = true → s.byteAt s.pc = s.config.opcLdaZpX →
    (∀ addr : Word, addr = s.pc ∨ addr = s.pc + 1#16 ∨
      addr.toNat = ((s.byteAt (s.pc + 1#16)).toNat + s.x.toNat) % 256 → m.peek addr.toNat = s.byteAt addr) →
    step s = .next t → step { s with mem := m } = .next { t with mem := m }

/-- From R16 and the access table of R37, with the spec's own decisions D7 and D18 (assumptions 6 and 7): a step that moves `SP` or changes a byte of memory is a subroutine-jump; it moves `SP` down by 2, or by 1
where its second write faults, and changes no byte but those at the old `SP` and one below. -/
def Obligations.OnlySubroutineJumpMovesStackOrMemory : Prop :=
  ∀ s t : State, step s = .next t →
    ((t.sp ≠ s.sp ∨ ∃ addr : Word, t.byteAt addr ≠ s.byteAt addr) → s.byteAt s.pc = s.config.opcJsr) ∧
    (t.sp = s.sp ∨ t.sp = s.sp - 2#16 ∨ t.sp = s.sp - 1#16 ∧ t.fault = .addressOutOfRange (s.sp - 1#16)) ∧
    ∀ addr : Word, addr ≠ s.sp → addr ≠ s.sp - 1#16 → t.byteAt addr = s.byteAt addr

/-- From the table of R135: what a step that does not fault costs: 2, 3, 4 and 6 cycles for the four instructions, 1 for an
unknown opcode; nothing depends on an address or on data. -/
def Obligations.CyclesOfAnUnfaultedStep : Prop :=
  ∀ s t : State, step s = .next t → t.fault = .none →
    t.cyc = s.cyc -
      (if s.byteAt s.pc = s.config.opcLdaImm then 2
       else if s.byteAt s.pc = s.config.opcLdaZp then 3
       else if s.byteAt s.pc = s.config.opcLdaZpX then 4
       else if s.byteAt s.pc = s.config.opcJsr then 6
       else 1)

/-- The dispatch table of R82 describes every step that does not fault: the cycles of the entry; where it defines a result
register, `Z` and `N` from the new `A` (R77), and where it does not, `A` and the flags as before; and but for the jump, `PC`
past the instruction. -/
def Obligations.DispatchTableDescribesTheStep : Prop :=
  ∀ (s t : State) (o : Operation), step s = .next t → t.fault = .none → s.config.lookup (s.byteAt s.pc) = some o →
    t.cyc = s.cyc - o.cycles ∧
    (o.definesResult = true → t.flags = { s.flags with z := decide (t.a = 0#8), n := t.a.msb }) ∧
    (o.definesResult = false → t.a = s.a ∧ t.flags = s.flags) ∧
    (o.mode ≠ .absolute → t.pc = s.pc + BitVec.ofNat 16 o.length)

/-- R101 and R102, with what the record holds, the spec's own decision D11 (assumption 3): the fault record a step writes is true: the address is out of range; or the byte at `PC` has no
dispatch-table entry, the policy is `fault`, and the record holds the byte and the `PC` before. -/
def Obligations.FaultRecordIsTrue : Prop :=
  ∀ s t : State, step s = .next t →
    t.fault = .none ∨
    (∃ addr : Word, t.fault = .addressOutOfRange addr ∧ s.config.memCapacity ≤ addr.toNat) ∨
    (t.fault = .unknownOpcode (s.byteAt s.pc) s.pc ∧ s.config.lookup (s.byteAt s.pc) = none ∧
      s.config.unknownOpcodePolicy = .fault)

/-- From R30 and R101: with all 65536 cells no step raises `AddressOutOfRange`; under the policy `nop` none faults at all. -/
def Obligations.FullCapacityNeverFaultsOnAnAddress : Prop :=
  ∀ s t : State, s.config.memCapacity = 65536 → step s = .next t →
    (∀ addr : Word, t.fault ≠ .addressOutOfRange addr) ∧
    (s.config.unknownOpcodePolicy = .nop → t.fault = .none)

/-- The flag update of R77, for every step: `Z` and `N` are written together, each from the new `A`, never both to 1, by the
three loads and by nothing else; all other flags stay; and the update costs no cycle. -/
def Obligations.FlagsFollowTheLoadsOnly : Prop :=
  (∀ (r : Byte) (s : State), updateZN r s = { s with flags := { s.flags with z := zeroFlag r, n := negativeFlag r } }) ∧
  ∀ s t : State, step s = .next t → t.fault = .none →
    let op := s.byteAt s.pc
    let load := op = s.config.opcLdaImm ∨ op = s.config.opcLdaZp ∨ op = s.config.opcLdaZpX
    (load → t.flags = { s.flags with z := zeroFlag t.a, n := negativeFlag t.a } ∧
      ¬ (t.flags.z = true ∧ t.flags.n = true)) ∧
    (¬ load → t.a = s.a ∧ t.flags = s.flags)

/-- What R93 says the three loads have in common: with the operand byte `r` of each, `A` is `r` unchanged, `Z` and `N` are
recomputed from it on every execution, the other five flags and every byte of memory stay; and no opcode but these three
has the effect, since a step on any other leaves `A`, `Z` and `N` alone. -/
def Obligations.LoadsShareOneEffect : Prop :=
  ∀ s t : State, s.config.wf = true → step s = .next t → t.fault = .none →
    let op := s.byteAt s.pc
    let b := s.byteAt (s.pc + 1#16)
    (∀ r : Byte,
      (op = s.config.opcLdaImm ∧ r = b ∨
        ∃ ea : Word, r = s.byteAt ea ∧
          (op = s.config.opcLdaZp ∧ ea.toNat = b.toNat ∨
            op = s.config.opcLdaZpX ∧ ea.toNat = (b.toNat + s.x.toNat) % 256)) →
      t.a = r ∧ (t.flags.z = true ↔ r.toNat = 0) ∧ (t.flags.n = true ↔ 128 ≤ r.toNat) ∧
      t.flags.c = s.flags.c ∧ t.flags.v = s.flags.v ∧ t.flags.i = s.flags.i ∧ t.flags.d = s.flags.d ∧
      t.flags.b = s.flags.b ∧ ∀ addr : Word, t.byteAt addr = s.byteAt addr) ∧
    (op ≠ s.config.opcLdaImm → op ≠ s.config.opcLdaZp → op ≠ s.config.opcLdaZpX →
      t.a = s.a ∧ t.flags.z = s.flags.z ∧ t.flags.n = s.flags.n)

/-! ## Execute -/

/-- The loop of R81, without fuel, on which the spec's own decisions D5 and D10 bear (assumptions 3 and 8): Execute loads the budget and makes one step; if that ended the run it returns, and
otherwise the rest is an Execute with what is left. -/
def Obligations.ExecuteUnrolls : Prop :=
  ∀ (s t : State) (budget : Nat), s.fault = .none → 0 < budget → step { s with cyc := budget } = .next t →
    (t.RunEnded → execute budget s = .next t) ∧
    (¬ t.RunEnded → t.cyc < budget ∧ execute budget s = execute t.cyc.toNat t)

/-- From R81 and R86, with the spec's own decisions D5 and D20 (assumption 8): a faulted core ignores Execute, `cyc` included; on an unfaulted one what was left of an earlier budget
is discarded, and a budget of 0 changes nothing but `cyc`. -/
def Obligations.ExecuteReloadsTheBudget : Prop :=
  ∀ (s : State) (budget : Nat) (left : Int),
    (s.fault ≠ .none → execute budget s = .next s) ∧
    (s.fault = .none → execute budget { s with cyc := left } = execute budget s ∧
      execute 0 s = .next { s with cyc := 0 })

/-- R87, which the spec derives, with its own decisions D4 (the soft budget, assumption 8) and D10 (the fault record that
ends the loop, assumption 3): every Execute call returns after at most `budget` steps of the machine, with the core
faulted or the budget spent; the end is one of the three error kinds of R100, and a fatal one exactly at a fault. -/
def Obligations.ExecuteTerminates : Prop :=
  ∀ (s : State) (budget : Nat), s.fault = .none →
    ∃ (k : Nat) (t : State), k ≤ budget ∧ core.run k { s with cyc := budget } = .next t ∧
      execute budget s = .next t ∧ t.RunEnded ∧
      ∃ kind : ErrorKind, t.endOfRun = some kind ∧ (kind.fatal = true ↔ t.fault ≠ .none)

/-- The bounds the spec derives in R84 from its own decision D4 (assumption 8): the budget is soft: a call that ends without a fault overshoots by at most 5 cycles; `Execute(1)` runs a whole
subroutine-jump and overshoots by 5. -/
def Obligations.SoftBudgetOvershoot : Prop :=
  ∀ (s t : State) (budget : Nat), s.fault = .none → execute budget s = .next t → t.fault = .none →
    (-5 ≤ t.cyc ∧ t.cyc ≤ 0) ∧
    (s.config.wf = true → budget = 1 → s.byteAt s.pc = s.config.opcJsr → t.cyc = -5 ∧ t.sp = s.sp - 2#16)

/-- The bounds the spec derives in R18 from its own decision D5 (assumption 8): `cyc` is always in `-5 .. 2^BUDGET_WIDTH - 1`: after reset, and after every host request if before it. -/
def Obligations.CycleCountStaysInRange : Prop :=
  ∀ s : State, s.config.wf = true →
    (-5 ≤ (resetCore s).cyc ∧ (resetCore s).cyc ≤ 2 ^ s.config.budgetWidth - 1) ∧
    ∀ q : Request, -5 ≤ s.cyc → s.cyc ≤ 2 ^ s.config.budgetWidth - 1 →
      -5 ≤ (request q s).2.cyc ∧ (request q s).2.cyc ≤ 2 ^ s.config.budgetWidth - 1

/-- From R84, R112: on an unfaulted core `Execute(1)` is exactly one step with one cycle to spend. -/
def Obligations.ExecuteOfOneIsOneStep : Prop :=
  ∀ s : State, s.fault = .none → execute 1 s = step { s with cyc := 1 }

/-- From R87 and R135: a clean run of `k` steps started unfaulted, kept the parameters, and spent at least `k` and at most
`6 * k` cycles. -/
def Obligations.CleanRunSpendsCycles : Prop :=
  ∀ (k : Nat) (s t : State), CleanRun k s t →
    s.fault = .none ∧ t.config = s.config ∧ s.cyc - 6 * k ≤ t.cyc ∧ t.cyc ≤ s.cyc - k

/-! ## Reset, faults and the host -/

/-- R23 and R120: reset gives every piece of state its value, reads nothing of the state before, and twice is once. The
values of `cyc` and `fault` and the default numbers of `PC_RESET` and `SP_RESET` are the spec's own decisions D5, D10, D2,
D3 (assumptions 2, 3 and 8). -/
def Obligations.ResetValues : Prop :=
  ∀ s : State,
    let r := resetCore s
    r.a = 0x00#8 ∧ r.x = 0x00#8 ∧ r.y = 0x00#8 ∧
    r.flags = { c := false, z := false, i := false, d := false, b := false, v := false, n := false } ∧
    r.pc = s.config.pcReset ∧ r.sp = s.config.spReset ∧ (∀ addr : Word, r.byteAt addr = 0x00#8) ∧
    r.cyc = 0 ∧ r.fault = .none ∧ r.config = s.config ∧ resetCore r = r ∧
    State.reset = State.resetWith Config.default ∧ State.reset.pc = 0xFFFC#16 ∧ State.reset.sp = 0x01FF#16

/-- A fault is final until reset. From R106, with the spec's own decisions D10 and D20 (assumption 3): no step runs, Execute
changes nothing, and reset clears the record. From R127, its own decision D14: the host may only read or reset while the
core is faulted; that any other request is then rejected, and so changes nothing, is the model's own choice (assumption 9).
-/
def Obligations.FaultIsFinalUntilReset : Prop :=
  ∀ s : State, s.fault ≠ .none →
    step s = .fault (.coreFaulted s.fault) ∧ (∀ budget : Nat, execute budget s = .next s) ∧
    (∀ q : Request, q ≠ .reset → (request q s).2 = s) ∧ (request .reset s).2.fault = .none

/-- From R124 and R127, the spec's own decisions D14 and D22 (assumption 9): the host's accesses to memory on an idle core: a write in range is read back and changes one cell at no
cost, an access out of range is rejected; and whatever is rejected changes nothing. -/
def Obligations.HostMemoryAccess : Prop :=
  ∀ (s : State) (addr : Nat) (v : Byte), s.fault = .none → s.mem.wf = true →
    (addr < s.config.memCapacity → ∃ t : State, request (.writeMem addr v) s = (.done, t) ∧
      t = { s with mem := t.mem } ∧ request (.readMem addr) t = (.byte v, t) ∧
      ∀ other : Nat, other ≠ addr → t.mem.peek other = s.mem.peek other) ∧
    (s.config.memCapacity ≤ addr →
      request (.writeMem addr v) s = (.rejected .addressOutOfRange, s) ∧
      request (.readMem addr) s = (.rejected .addressOutOfRange, s)) ∧
    ∀ (q : Request) (r : Rejection), (request q s).1 = .rejected r → (request q s).2 = s ∧ r ≠ .executeStopped

/-- From R127, the spec's own decision D14 (assumption 9): a host register write on an idle core is seen by `HostReadState` in that register or flag, and leaves memory,
`cyc`, `fault` and the parameters alone. -/
def Obligations.HostRegisterWrites : Prop :=
  ∀ (s : State) (w : RegWrite), s.fault = .none →
    ∃ t : State, request (.writeReg w) s = (.done, t) ∧ request .readState t = (.view t.view, t) ∧
      t.mem = s.mem ∧ t.config = s.config ∧
      t.view = (match w with
        | .a v => { s.view with a := v }
        | .x v => { s.view with x := v }
        | .y v => { s.view with y := v }
        | .pc v => { s.view with pc := v }
        | .sp v => { s.view with sp := v }
        | .c v => { s.view with flags := { s.flags with c := v } }
        | .z v => { s.view with flags := { s.flags with z := v } }
        | .i v => { s.view with flags := { s.flags with i := v } }
        | .d v => { s.view with flags := { s.flags with d := v } }
        | .b v => { s.view with flags := { s.flags with b := v } }
        | .v v => { s.view with flags := { s.flags with v := v } }
        | .n v => { s.view with flags := { s.flags with n := v } })

/-- The model's invariant (assumptions 1 and 5): every host request, Execute included, keeps the invariant and the parameters. -/
def Obligations.HostRequestsKeepInvariant : Prop :=
  ∀ (q : Request) (s : State), s.Inv → (request q s).2.Inv ∧ (request q s).2.config = s.config
end

