-- ==== Sys2Proof/Laws/Decode.lean ====
section
/-! SUPPORT. The laws of the byte and word helpers (rule R6) and of the dispatch table (R55, R82). -/

namespace Sys2Proof

/-! ## Bytes and words -/

@[simp] theorem toNat_concatBytes (h l : Byte) : (concatBytes h l).toNat = h.toNat * 256 + l.toNat := by
  have hor := Nat.two_pow_add_eq_or_of_lt (i := 8) (b := l.toNat) l.isLt h.toNat
  rw [concatBytes, BitVec.toNat_append, Nat.shiftLeft_eq, Nat.mul_comm, ← hor]

@[simp] theorem toNat_zeroExtend16 (b : Byte) : (zeroExtend16 b).toNat = b.toNat := by
  simp only [zeroExtend16, BitVec.toNat_setWidth]
  omega

@[simp] theorem toNat_highByte (w : Word) : (highByte w).toNat = w.toNat / 256 := by
  simp only [highByte, BitVec.extractLsb'_toNat, Nat.shiftRight_eq_div_pow]
  omega

@[simp] theorem toNat_lowByte (w : Word) : (lowByte w).toNat = w.toNat % 256 := by
  simp [lowByte, BitVec.extractLsb'_toNat]

/-- R53: the two bytes of a word make the word. -/
@[simp] theorem concatBytes_highByte_lowByte (w : Word) : concatBytes (highByte w) (lowByte w) = w := by
  apply BitVec.eq_of_toNat_eq
  simp only [toNat_concatBytes, toNat_highByte, toNat_lowByte]
  omega

@[simp] theorem highByte_concatBytes (h l : Byte) : highByte (concatBytes h l) = h := by
  apply BitVec.eq_of_toNat_eq
  simp only [toNat_highByte, toNat_concatBytes]
  omega

@[simp] theorem lowByte_concatBytes (h l : Byte) : lowByte (concatBytes h l) = l := by
  apply BitVec.eq_of_toNat_eq
  simp only [toNat_lowByte, toNat_concatBytes]
  omega

/-! ## The dispatch table -/

/-- Legal parameters have four distinct opcode bytes. -/
theorem Config.wf_opcodes {c : Config} (h : c.wf = true) :
    c.opcLdaImm ≠ c.opcLdaZp ∧ c.opcLdaImm ≠ c.opcLdaZpX ∧ c.opcLdaImm ≠ c.opcJsr ∧ c.opcLdaZp ≠ c.opcLdaZpX ∧
      c.opcLdaZp ≠ c.opcJsr ∧ c.opcLdaZpX ≠ c.opcJsr := by
  simp [Config.wf, Config.opcodesDistinct] at h
  tauto

/-- The look-up as the chain of tests of R83. -/
theorem Config.lookup_eq (c : Config) (op : Byte) :
    c.lookup op =
      if op = c.opcLdaImm then some .ldaImm else if op = c.opcLdaZp then some .ldaZp
      else if op = c.opcLdaZpX then some .ldaZpX else if op = c.opcJsr then some .jsrAbs else none := rfl

/-- An entry found is the entry of that opcode byte. -/
theorem Config.opcode_of_lookup {c : Config} {op : Byte} {o : Operation} (h : c.lookup op = some o) :
    op = c.opcode o := by
  rw [c.lookup_eq] at h
  split_ifs at h <;> cases h <;> assumption

/-- Under legal parameters every entry is found under its own opcode byte. -/
theorem Config.lookup_opcode {c : Config} (h : c.wf = true) (o : Operation) : c.lookup (c.opcode o) = some o := by
  obtain ⟨h1, h2, h3, h4, h5, h6⟩ := Config.wf_opcodes h
  cases o <;> simp [Config.lookup_eq, Config.opcode, h1.symm, h2.symm, h3.symm, h4.symm, h5.symm, h6.symm]

/-- A table miss is a byte that is none of the four. -/
theorem Config.lookup_eq_none {c : Config} {op : Byte} :
    c.lookup op = none ↔ op ≠ c.opcLdaImm ∧ op ≠ c.opcLdaZp ∧ op ≠ c.opcLdaZpX ∧ op ≠ c.opcJsr := by
  rw [c.lookup_eq]
  split_ifs <;> simp_all

/-- R52: the operand bytes of a known opcode. -/
theorem Config.operandCount_of_lookup {c : Config} {op : Byte} {o : Operation} (h : c.lookup op = some o) :
    c.operandCount op = o.mode.operandBytes := by
  simp [Config.operandCount, h]

/-- R52: after an unknown opcode no operand byte is fetched. -/
theorem Config.operandCount_of_miss {c : Config} {op : Byte} (h : c.lookup op = none) : c.operandCount op = 0 := by
  simp [Config.operandCount, h]

/-- The decoder on a known opcode byte. -/
theorem decode_of_lookup {c : Config} {op : Byte} {o : Operation} (h : c.lookup op = some o) (rest : List Byte) :
    decode c (op :: rest) = decodeOperand op o rest := by
  simp [decode, h]

/-- The decoder on an unknown opcode byte. -/
theorem decode_of_miss {c : Config} {op : Byte} (h : c.lookup op = none) (rest : List Byte) :
    decode c (op :: rest) = .rejected (.unknownOpcode op) := by
  simp [decode, h]

end Sys2Proof
end

