-- ==== Sys2Proof/Laws/State.lean ====
section
/-! SUPPORT. What each named update of the state leaves in each field: one lemma per field per update. -/

namespace Sys2Proof.Machine

@[simp] theorem State.setA_a (s : State) (v : Byte) : (s.setA v).a = v := rfl
@[simp] theorem State.setA_x (s : State) (v : Byte) : (s.setA v).x = s.x := rfl
@[simp] theorem State.setA_y (s : State) (v : Byte) : (s.setA v).y = s.y := rfl
@[simp] theorem State.setA_pc (s : State) (v : Byte) : (s.setA v).pc = s.pc := rfl
@[simp] theorem State.setA_sp (s : State) (v : Byte) : (s.setA v).sp = s.sp := rfl
@[simp] theorem State.setA_flags (s : State) (v : Byte) : (s.setA v).flags = s.flags := rfl
@[simp] theorem State.setA_mem (s : State) (v : Byte) : (s.setA v).mem = s.mem := rfl
@[simp] theorem State.setA_cyc (s : State) (v : Byte) : (s.setA v).cyc = s.cyc := rfl
@[simp] theorem State.setA_fault (s : State) (v : Byte) : (s.setA v).fault = s.fault := rfl
@[simp] theorem State.setA_config (s : State) (v : Byte) : (s.setA v).config = s.config := rfl

@[simp] theorem State.setX_a (s : State) (v : Byte) : (s.setX v).a = s.a := rfl
@[simp] theorem State.setX_x (s : State) (v : Byte) : (s.setX v).x = v := rfl
@[simp] theorem State.setX_y (s : State) (v : Byte) : (s.setX v).y = s.y := rfl
@[simp] theorem State.setX_pc (s : State) (v : Byte) : (s.setX v).pc = s.pc := rfl
@[simp] theorem State.setX_sp (s : State) (v : Byte) : (s.setX v).sp = s.sp := rfl
@[simp] theorem State.setX_flags (s : State) (v : Byte) : (s.setX v).flags = s.flags := rfl
@[simp] theorem State.setX_mem (s : State) (v : Byte) : (s.setX v).mem = s.mem := rfl
@[simp] theorem State.setX_cyc (s : State) (v : Byte) : (s.setX v).cyc = s.cyc := rfl
@[simp] theorem State.setX_fault (s : State) (v : Byte) : (s.setX v).fault = s.fault := rfl
@[simp] theorem State.setX_config (s : State) (v : Byte) : (s.setX v).config = s.config := rfl

@[simp] theorem State.setY_a (s : State) (v : Byte) : (s.setY v).a = s.a := rfl
@[simp] theorem State.setY_x (s : State) (v : Byte) : (s.setY v).x = s.x := rfl
@[simp] theorem State.setY_y (s : State) (v : Byte) : (s.setY v).y = v := rfl
@[simp] theorem State.setY_pc (s : State) (v : Byte) : (s.setY v).pc = s.pc := rfl
@[simp] theorem State.setY_sp (s : State) (v : Byte) : (s.setY v).sp = s.sp := rfl
@[simp] theorem State.setY_flags (s : State) (v : Byte) : (s.setY v).flags = s.flags := rfl
@[simp] theorem State.setY_mem (s : State) (v : Byte) : (s.setY v).mem = s.mem := rfl
@[simp] theorem State.setY_cyc (s : State) (v : Byte) : (s.setY v).cyc = s.cyc := rfl
@[simp] theorem State.setY_fault (s : State) (v : Byte) : (s.setY v).fault = s.fault := rfl
@[simp] theorem State.setY_config (s : State) (v : Byte) : (s.setY v).config = s.config := rfl

@[simp] theorem State.setPc_a (s : State) (w : Word) : (s.setPc w).a = s.a := rfl
@[simp] theorem State.setPc_x (s : State) (w : Word) : (s.setPc w).x = s.x := rfl
@[simp] theorem State.setPc_y (s : State) (w : Word) : (s.setPc w).y = s.y := rfl
@[simp] theorem State.setPc_pc (s : State) (w : Word) : (s.setPc w).pc = w := rfl
@[simp] theorem State.setPc_sp (s : State) (w : Word) : (s.setPc w).sp = s.sp := rfl
@[simp] theorem State.setPc_flags (s : State) (w : Word) : (s.setPc w).flags = s.flags := rfl
@[simp] theorem State.setPc_mem (s : State) (w : Word) : (s.setPc w).mem = s.mem := rfl
@[simp] theorem State.setPc_cyc (s : State) (w : Word) : (s.setPc w).cyc = s.cyc := rfl
@[simp] theorem State.setPc_fault (s : State) (w : Word) : (s.setPc w).fault = s.fault := rfl
@[simp] theorem State.setPc_config (s : State) (w : Word) : (s.setPc w).config = s.config := rfl

@[simp] theorem State.setSp_a (s : State) (w : Word) : (s.setSp w).a = s.a := rfl
@[simp] theorem State.setSp_x (s : State) (w : Word) : (s.setSp w).x = s.x := rfl
@[simp] theorem State.setSp_y (s : State) (w : Word) : (s.setSp w).y = s.y := rfl
@[simp] theorem State.setSp_pc (s : State) (w : Word) : (s.setSp w).pc = s.pc := rfl
@[simp] theorem State.setSp_sp (s : State) (w : Word) : (s.setSp w).sp = w := rfl
@[simp] theorem State.setSp_flags (s : State) (w : Word) : (s.setSp w).flags = s.flags := rfl
@[simp] theorem State.setSp_mem (s : State) (w : Word) : (s.setSp w).mem = s.mem := rfl
@[simp] theorem State.setSp_cyc (s : State) (w : Word) : (s.setSp w).cyc = s.cyc := rfl
@[simp] theorem State.setSp_fault (s : State) (w : Word) : (s.setSp w).fault = s.fault := rfl
@[simp] theorem State.setSp_config (s : State) (w : Word) : (s.setSp w).config = s.config := rfl

@[simp] theorem State.setFlags_a (s : State) (f : Flags) : (s.setFlags f).a = s.a := rfl
@[simp] theorem State.setFlags_x (s : State) (f : Flags) : (s.setFlags f).x = s.x := rfl
@[simp] theorem State.setFlags_y (s : State) (f : Flags) : (s.setFlags f).y = s.y := rfl
@[simp] theorem State.setFlags_pc (s : State) (f : Flags) : (s.setFlags f).pc = s.pc := rfl
@[simp] theorem State.setFlags_sp (s : State) (f : Flags) : (s.setFlags f).sp = s.sp := rfl
@[simp] theorem State.setFlags_flags (s : State) (f : Flags) : (s.setFlags f).flags = f := rfl
@[simp] theorem State.setFlags_mem (s : State) (f : Flags) : (s.setFlags f).mem = s.mem := rfl
@[simp] theorem State.setFlags_cyc (s : State) (f : Flags) : (s.setFlags f).cyc = s.cyc := rfl
@[simp] theorem State.setFlags_fault (s : State) (f : Flags) : (s.setFlags f).fault = s.fault := rfl
@[simp] theorem State.setFlags_config (s : State) (f : Flags) : (s.setFlags f).config = s.config := rfl

@[simp] theorem State.setMem_a (s : State) (m : Memory) : (s.setMem m).a = s.a := rfl
@[simp] theorem State.setMem_x (s : State) (m : Memory) : (s.setMem m).x = s.x := rfl
@[simp] theorem State.setMem_y (s : State) (m : Memory) : (s.setMem m).y = s.y := rfl
@[simp] theorem State.setMem_pc (s : State) (m : Memory) : (s.setMem m).pc = s.pc := rfl
@[simp] theorem State.setMem_sp (s : State) (m : Memory) : (s.setMem m).sp = s.sp := rfl
@[simp] theorem State.setMem_flags (s : State) (m : Memory) : (s.setMem m).flags = s.flags := rfl
@[simp] theorem State.setMem_mem (s : State) (m : Memory) : (s.setMem m).mem = m := rfl
@[simp] theorem State.setMem_cyc (s : State) (m : Memory) : (s.setMem m).cyc = s.cyc := rfl
@[simp] theorem State.setMem_fault (s : State) (m : Memory) : (s.setMem m).fault = s.fault := rfl
@[simp] theorem State.setMem_config (s : State) (m : Memory) : (s.setMem m).config = s.config := rfl

@[simp] theorem State.setCyc_a (s : State) (n : Int) : (s.setCyc n).a = s.a := rfl
@[simp] theorem State.setCyc_x (s : State) (n : Int) : (s.setCyc n).x = s.x := rfl
@[simp] theorem State.setCyc_y (s : State) (n : Int) : (s.setCyc n).y = s.y := rfl
@[simp] theorem State.setCyc_pc (s : State) (n : Int) : (s.setCyc n).pc = s.pc := rfl
@[simp] theorem State.setCyc_sp (s : State) (n : Int) : (s.setCyc n).sp = s.sp := rfl
@[simp] theorem State.setCyc_flags (s : State) (n : Int) : (s.setCyc n).flags = s.flags := rfl
@[simp] theorem State.setCyc_mem (s : State) (n : Int) : (s.setCyc n).mem = s.mem := rfl
@[simp] theorem State.setCyc_cyc (s : State) (n : Int) : (s.setCyc n).cyc = n := rfl
@[simp] theorem State.setCyc_fault (s : State) (n : Int) : (s.setCyc n).fault = s.fault := rfl
@[simp] theorem State.setCyc_config (s : State) (n : Int) : (s.setCyc n).config = s.config := rfl

@[simp] theorem State.setFault_a (s : State) (f : FaultRecord) : (s.setFault f).a = s.a := rfl
@[simp] theorem State.setFault_x (s : State) (f : FaultRecord) : (s.setFault f).x = s.x := rfl
@[simp] theorem State.setFault_y (s : State) (f : FaultRecord) : (s.setFault f).y = s.y := rfl
@[simp] theorem State.setFault_pc (s : State) (f : FaultRecord) : (s.setFault f).pc = s.pc := rfl
@[simp] theorem State.setFault_sp (s : State) (f : FaultRecord) : (s.setFault f).sp = s.sp := rfl
@[simp] theorem State.setFault_flags (s : State) (f : FaultRecord) : (s.setFault f).flags = s.flags := rfl
@[simp] theorem State.setFault_mem (s : State) (f : FaultRecord) : (s.setFault f).mem = s.mem := rfl
@[simp] theorem State.setFault_cyc (s : State) (f : FaultRecord) : (s.setFault f).cyc = s.cyc := rfl
@[simp] theorem State.setFault_fault (s : State) (f : FaultRecord) : (s.setFault f).fault = f := rfl
@[simp] theorem State.setFault_config (s : State) (f : FaultRecord) : (s.setFault f).config = s.config := rfl

@[simp] theorem State.spend_a (s : State) : s.spend.a = s.a := rfl
@[simp] theorem State.spend_x (s : State) : s.spend.x = s.x := rfl
@[simp] theorem State.spend_y (s : State) : s.spend.y = s.y := rfl
@[simp] theorem State.spend_pc (s : State) : s.spend.pc = s.pc := rfl
@[simp] theorem State.spend_sp (s : State) : s.spend.sp = s.sp := rfl
@[simp] theorem State.spend_flags (s : State) : s.spend.flags = s.flags := rfl
@[simp] theorem State.spend_mem (s : State) : s.spend.mem = s.mem := rfl
@[simp] theorem State.spend_cyc (s : State) : s.spend.cyc = s.cyc - 1 := rfl
@[simp] theorem State.spend_fault (s : State) : s.spend.fault = s.fault := rfl
@[simp] theorem State.spend_config (s : State) : s.spend.config = s.config := rfl

@[simp] theorem State.afterFetch_a (s : State) (k : Nat) : (s.afterFetch k).a = s.a := rfl
@[simp] theorem State.afterFetch_x (s : State) (k : Nat) : (s.afterFetch k).x = s.x := rfl
@[simp] theorem State.afterFetch_y (s : State) (k : Nat) : (s.afterFetch k).y = s.y := rfl
@[simp] theorem State.afterFetch_pc (s : State) (k : Nat) : (s.afterFetch k).pc = s.pc + BitVec.ofNat 16 k := rfl
@[simp] theorem State.afterFetch_sp (s : State) (k : Nat) : (s.afterFetch k).sp = s.sp := rfl
@[simp] theorem State.afterFetch_flags (s : State) (k : Nat) : (s.afterFetch k).flags = s.flags := rfl
@[simp] theorem State.afterFetch_mem (s : State) (k : Nat) : (s.afterFetch k).mem = s.mem := rfl
@[simp] theorem State.afterFetch_cyc (s : State) (k : Nat) : (s.afterFetch k).cyc = s.cyc - k := rfl
@[simp] theorem State.afterFetch_fault (s : State) (k : Nat) : (s.afterFetch k).fault = s.fault := rfl
@[simp] theorem State.afterFetch_config (s : State) (k : Nat) : (s.afterFetch k).config = s.config := rfl

/-! What the updates do to the read of one byte. -/

@[simp] theorem State.setA_byteAt (s : State) (v : Byte) (addr : Word) : (s.setA v).byteAt addr = s.byteAt addr := rfl
@[simp] theorem State.setX_byteAt (s : State) (v : Byte) (addr : Word) : (s.setX v).byteAt addr = s.byteAt addr := rfl
@[simp] theorem State.setY_byteAt (s : State) (v : Byte) (addr : Word) : (s.setY v).byteAt addr = s.byteAt addr := rfl
@[simp] theorem State.setPc_byteAt (s : State) (w : Word) (addr : Word) : (s.setPc w).byteAt addr = s.byteAt addr := rfl
@[simp] theorem State.setSp_byteAt (s : State) (w : Word) (addr : Word) : (s.setSp w).byteAt addr = s.byteAt addr := rfl
@[simp] theorem State.setFlags_byteAt (s : State) (f : Flags) (addr : Word) : (s.setFlags f).byteAt addr = s.byteAt addr := rfl
@[simp] theorem State.setCyc_byteAt (s : State) (n : Int) (addr : Word) : (s.setCyc n).byteAt addr = s.byteAt addr := rfl
@[simp] theorem State.setFault_byteAt (s : State) (f : FaultRecord) (addr : Word) : (s.setFault f).byteAt addr = s.byteAt addr := rfl
@[simp] theorem State.setMem_byteAt (s : State) (m : Memory) (addr : Word) : (s.setMem m).byteAt addr = m.peek addr.toNat := rfl
@[simp] theorem State.spend_byteAt (s : State) (addr : Word) : s.spend.byteAt addr = s.byteAt addr := rfl

/-! A decoded outcome is a next state, whichever way the primitive ended. -/

@[simp] theorem Res.outcome_ok (u : Unit) (s : State) : (Res.ok u s).outcome = .next s := rfl
@[simp] theorem Res.outcome_raised (s : State) : (Res.raised s : Res Unit).outcome = .next s := rfl
@[simp] theorem Res.bind_ok {α β : Type} (v : α) (s : State) (k : α → State → Res β) : (Res.ok v s).bind k = k v s := rfl
@[simp] theorem Res.bind_raised {α β : Type} (s : State) (k : α → State → Res β) :
    (Res.raised s).bind k = .raised s := rfl

end Sys2Proof.Machine
end

