-- ==== Sys2Proof/Laws/Memory.lean ====
section
/-! SUPPORT. The laws of the memory array (rule R33): read after write, every other cell kept, and that every memory
operation keeps the canonical form and the bound. -/

namespace Sys2Proof.Machine

@[simp] theorem Memory.peek_nil (a : Nat) : peek [] a = unlisted := rfl

@[simp] theorem Memory.wf_nil : wf [] = true := rfl

@[simp] theorem Memory.within_nil (capacity : Nat) : within capacity [] = true := rfl

theorem Memory.wfFrom_cons {lo k : Nat} {b : Byte} {m : Memory} :
    wfFrom lo ((k, b) :: m) = true ↔ lo ≤ k ∧ b ≠ unlisted ∧ wfFrom (k + 1) m = true := by
  simp [wfFrom, and_assoc]

theorem Memory.wfFrom_weaken {lo lo' : Nat} {m : Memory} (h : wfFrom lo m = true) (hle : lo' ≤ lo) : wfFrom lo' m = true := by
  cases m with
  | nil => rfl
  | cons cell m => rw [wfFrom_cons] at h ⊢; exact ⟨hle.trans h.1, h.2⟩

/-- Below its lower bound a canonical memory lists nothing. -/
theorem Memory.peek_below {lo a : Nat} {m : Memory} (h : wfFrom lo m = true) (ha : a < lo) : peek m a = unlisted := by
  induction m generalizing lo with
  | nil => rfl
  | cons cell m ih =>
    obtain ⟨hk, -, hm⟩ := wfFrom_cons.mp h
    simp only [peek, if_neg (show a ≠ cell.1 by omega)]
    exact ih hm (by omega)

theorem Memory.peek_consCell_self (a : Nat) (v : Byte) {m : Memory} (hm : peek m a = unlisted) :
    peek (consCell (a, v) m) a = v := by
  by_cases hv : v = unlisted <;> simp [consCell, hv, hm, peek]

theorem Memory.peek_consCell_other {a a' : Nat} (v : Byte) (m : Memory) (h : a' ≠ a) :
    peek (consCell (a, v) m) a' = peek m a' := by
  by_cases hv : v = unlisted <;> simp [consCell, hv, peek, h]

/-- R33: a write leaves every other cell alone. -/
theorem Memory.peek_poke_other {a a' : Nat} (v : Byte) (m : Memory) (h : a' ≠ a) : peek (poke m a v) a' = peek m a' := by
  induction m with
  | nil => exact peek_consCell_other v [] h
  | cons cell m ih =>
    simp only [poke]
    split
    · exact peek_consCell_other v _ h
    · split
      · next hk => simp [peek_consCell_other v m h, peek, hk ▸ h]
      · simp [peek, ih]

theorem Memory.peek_poke_self_from {lo : Nat} (a : Nat) (v : Byte) {m : Memory} (hm : wfFrom lo m = true) :
    peek (poke m a v) a = v := by
  induction m generalizing lo with
  | nil => exact peek_consCell_self a v rfl
  | cons cell m ih =>
    obtain ⟨-, -, hrest⟩ := wfFrom_cons.mp hm
    simp only [poke]
    split
    · next hk =>
      exact peek_consCell_self a v (peek_below (wfFrom_cons.mpr ⟨le_rfl, (wfFrom_cons.mp hm).2⟩) hk)
    · split
      · next hk => exact peek_consCell_self a v (peek_below hrest (by omega))
      · next hk => simp [peek, hk, ih hrest]

/-- R33: a write followed by a read of the same cell gives the byte written. -/
theorem Memory.peek_poke_self (a : Nat) (v : Byte) {m : Memory} (hm : m.wf = true) : peek (poke m a v) a = v :=
  peek_poke_self_from a v hm

theorem Memory.wfFrom_consCell {lo a : Nat} (v : Byte) {m : Memory} (hle : lo ≤ a) (hm : wfFrom (a + 1) m = true) :
    wfFrom lo (consCell (a, v) m) = true := by
  by_cases hv : v = unlisted
  · simpa [consCell, hv] using wfFrom_weaken hm (by omega)
  · simpa [consCell, hv] using wfFrom_cons.mpr ⟨hle, hv, hm⟩

theorem Memory.wfFrom_poke {lo a : Nat} (v : Byte) {m : Memory} (hle : lo ≤ a) (hm : wfFrom lo m = true) :
    wfFrom lo (poke m a v) = true := by
  induction m generalizing lo with
  | nil => exact wfFrom_consCell v hle rfl
  | cons cell m ih =>
    obtain ⟨hk, hb, hrest⟩ := wfFrom_cons.mp hm
    simp only [poke]
    split
    · next h => exact wfFrom_consCell v hle (wfFrom_cons.mpr ⟨h, hb, hrest⟩)
    · split
      · next h => exact wfFrom_consCell v hle (h ▸ hrest)
      · exact wfFrom_cons.mpr ⟨hk, hb, ih (by omega) hrest⟩

/-- Every write keeps the canonical form. -/
theorem Memory.wf_poke (a : Nat) (v : Byte) {m : Memory} (hm : m.wf = true) : (poke m a v).wf = true :=
  wfFrom_poke v (Nat.zero_le a) hm

theorem Memory.within_cons {capacity : Nat} {cell : Host.Cell} {m : Memory} :
    within capacity (cell :: m) = true ↔ cell.1 < capacity ∧ within capacity m = true := by
  simp [within]

theorem Memory.within_consCell {capacity a : Nat} (v : Byte) {m : Memory} (ha : a < capacity)
    (hm : within capacity m = true) : within capacity (consCell (a, v) m) = true := by
  by_cases hv : v = unlisted
  · simpa [consCell, hv] using hm
  · simpa [consCell, hv] using within_cons.mpr ⟨ha, hm⟩

/-- R30: a write to a cell that exists lists no cell that does not. -/
theorem Memory.within_poke {capacity a : Nat} (v : Byte) {m : Memory} (ha : a < capacity) (hm : within capacity m = true) :
    within capacity (poke m a v) = true := by
  induction m with
  | nil => exact within_consCell v ha hm
  | cons cell m ih =>
    obtain ⟨hc, hrest⟩ := within_cons.mp hm
    simp only [poke]
    split
    · exact within_consCell v ha hm
    · split
      · exact within_consCell v ha hrest
      · exact within_cons.mpr ⟨hc, ih hrest⟩

/-- R30: a memory within a capacity reads as unlisted from the capacity on. -/
theorem Memory.peek_beyond {capacity a : Nat} {m : Memory} (hm : m.within capacity = true) (ha : capacity ≤ a) :
    m.peek a = Memory.unlisted := by
  induction m with
  | nil => rfl
  | cons cell m ih =>
    obtain ⟨hc, hrest⟩ := Memory.within_cons.mp hm
    simp only [Memory.peek, if_neg (show a ≠ cell.1 by omega)]
    exact ih hrest

/-- The memory after reset is canonical, and no cell is listed beyond any capacity. -/
theorem State.resetWith_mem_wf (c : Config) :
    (State.resetWith c).mem.wf = true ∧ (State.resetWith c).mem.within c.memCapacity = true := ⟨rfl, rfl⟩

/-! ## Bytes of a state after a write -/

theorem State.byteAt_poke_self (s : State) (addr : Word) (v : Byte) (h : s.mem.wf = true) :
    (s.mem.poke addr.toNat v).peek addr.toNat = v := Memory.peek_poke_self _ _ h

theorem State.byteAt_poke_other (s : State) {addr other : Word} (v : Byte) (h : other ≠ addr) :
    (s.mem.poke addr.toNat v).peek other.toNat = s.byteAt other :=
  Memory.peek_poke_other v _ fun e => h (BitVec.eq_of_toNat_eq e)

end Sys2Proof.Machine
end

