-- ==== Sys2Proof/Laws/Ops.lean ====
section
/-! SUPPORT. What each shared operation can do: its answer where the access is in range and where it is not. The
primitives are not unfolded again after this file. -/

namespace Sys2Proof.Machine

variable {s : State} {addr : Word}

/-! ## Raw access (R31, R32) -/

theorem memRead_inRange (h : s.InRange addr) : memRead addr s = .ok (s.byteAt addr) s := if_pos h

theorem memRead_outOfRange (h : ¬ s.InRange addr) : memRead addr s = .raised (s.setFault (.addressOutOfRange addr)) :=
  if_neg h

theorem memWrite_inRange (v : Byte) (h : s.InRange addr) :
    memWrite addr v s = .ok v (s.setMem (s.mem.poke addr.toNat v)) := if_pos h

theorem memWrite_outOfRange (v : Byte) (h : ¬ s.InRange addr) :
    memWrite addr v s = .raised (s.setFault (.addressOutOfRange addr)) := if_neg h

/-! ## Fetching (R65, R66) -/

@[simp] theorem State.afterFetch_zero (s : State) : s.afterFetch 0 = s := by
  ext <;> simp

@[simp] theorem State.afterFetch_afterFetch (s : State) (j k : Nat) :
    (s.afterFetch j).afterFetch k = s.afterFetch (j + k) := by
  ext1 <;> simp [BitVec.ofNat_add, BitVec.add_assoc, sub_sub]

@[simp] theorem State.afterFetch_byteAt (s : State) (k : Nat) (addr : Word) :
    (s.afterFetch k).byteAt addr = s.byteAt addr := rfl

theorem State.inRange_afterFetch (s : State) (k : Nat) (addr : Word) :
    (s.afterFetch k).InRange addr ↔ s.InRange addr := Iff.rfl

theorem fetchByte_inRange (h : s.InRange s.pc) : fetchByte s = .ok (s.byteAt s.pc) (s.afterFetch 1) := by
  rw [fetchByte, memRead_inRange h]; rfl

theorem fetchByte_outOfRange (h : ¬ s.InRange s.pc) :
    fetchByte s = .raised (s.setFault (.addressOutOfRange s.pc)) := by
  rw [fetchByte, memRead_outOfRange h]; rfl

/-- Fetching `count` bytes that are all there gives them in order and advances past them. -/
theorem fetchBytes_inRange (count : Nat) (s : State)
    (h : ∀ k < count, s.InRange (s.pc + BitVec.ofNat 16 k)) :
    fetchBytes count s = .ok (s.bytesFrom s.pc count) (s.afterFetch count) := by
  induction count generalizing s with
  | zero => simp [fetchBytes, State.bytesFrom]
  | succ n ih =>
    have h0 : s.InRange s.pc := by simpa using h 0 (by omega)
    have hrest : ∀ k < n, (s.afterFetch 1).InRange ((s.afterFetch 1).pc + BitVec.ofNat 16 k) := fun k hk => by
      have := h (k + 1) (by omega)
      rwa [Nat.add_comm k 1, BitVec.ofNat_add, ← BitVec.add_assoc] at this
    have hbytes : ∀ (m : Nat) (w : Word), (s.afterFetch 1).bytesFrom w m = s.bytesFrom w m := fun m => by
      induction m with
      | zero => intro w; rfl
      | succ m ihm => intro w; simp [State.bytesFrom, ihm]
    simp [fetchBytes, fetchByte_inRange h0, ih _ hrest, hbytes, State.bytesFrom, Nat.add_comm 1 n]

/-! ## Reading and writing (R67, R68) -/

theorem readByte_inRange (h : s.InRange addr) : readByte addr s = .ok (s.byteAt addr) s.spend := by
  rw [readByte, memRead_inRange h]; rfl

theorem readByte_outOfRange (h : ¬ s.InRange addr) :
    readByte addr s = .raised (s.setFault (.addressOutOfRange addr)) := by
  rw [readByte, memRead_outOfRange h]; rfl

theorem writeByte_inRange (v : Byte) (h : s.InRange addr) :
    writeByte addr v s = .ok () (s.setMem (s.mem.poke addr.toNat v)).spend := by
  rw [writeByte, memWrite_inRange v h]; rfl

theorem writeByte_outOfRange (v : Byte) (h : ¬ s.InRange addr) :
    writeByte addr v s = .raised (s.setFault (.addressOutOfRange addr)) := by
  rw [writeByte, memWrite_outOfRange v h]; rfl

/-! ## Pushing (R69) -/

/-- The state after the first write of a push. -/
def State.afterHighPush (s : State) (w : Word) : State :=
  (s.setMem (s.mem.poke s.sp.toNat (highByte w))).spend.setSp (s.sp - 1#16)

/-- The state after both writes of a push. -/
def State.afterPush (s : State) (w : Word) : State :=
  ((s.afterHighPush w).setMem ((s.afterHighPush w).mem.poke (s.sp - 1#16).toNat (lowByte w))).spend.setSp (s.sp - 2#16)

/-! ### What a push leaves in each field -/

@[simp] theorem State.afterHighPush_a (s : State) (w : Word) : (s.afterHighPush w).a = s.a := rfl
@[simp] theorem State.afterHighPush_x (s : State) (w : Word) : (s.afterHighPush w).x = s.x := rfl
@[simp] theorem State.afterHighPush_y (s : State) (w : Word) : (s.afterHighPush w).y = s.y := rfl
@[simp] theorem State.afterHighPush_pc (s : State) (w : Word) : (s.afterHighPush w).pc = s.pc := rfl
@[simp] theorem State.afterHighPush_sp (s : State) (w : Word) : (s.afterHighPush w).sp = s.sp - 1#16 := rfl
@[simp] theorem State.afterHighPush_flags (s : State) (w : Word) : (s.afterHighPush w).flags = s.flags := rfl
@[simp] theorem State.afterHighPush_mem (s : State) (w : Word) : (s.afterHighPush w).mem = s.mem.poke s.sp.toNat (highByte w) := rfl
@[simp] theorem State.afterHighPush_cyc (s : State) (w : Word) : (s.afterHighPush w).cyc = s.cyc - 1 := rfl
@[simp] theorem State.afterHighPush_fault (s : State) (w : Word) : (s.afterHighPush w).fault = s.fault := rfl
@[simp] theorem State.afterHighPush_config (s : State) (w : Word) : (s.afterHighPush w).config = s.config := rfl

@[simp] theorem State.afterPush_a (s : State) (w : Word) : (s.afterPush w).a = s.a := rfl
@[simp] theorem State.afterPush_x (s : State) (w : Word) : (s.afterPush w).x = s.x := rfl
@[simp] theorem State.afterPush_y (s : State) (w : Word) : (s.afterPush w).y = s.y := rfl
@[simp] theorem State.afterPush_pc (s : State) (w : Word) : (s.afterPush w).pc = s.pc := rfl
@[simp] theorem State.afterPush_sp (s : State) (w : Word) : (s.afterPush w).sp = s.sp - 2#16 := rfl
@[simp] theorem State.afterPush_flags (s : State) (w : Word) : (s.afterPush w).flags = s.flags := rfl
@[simp] theorem State.afterPush_cyc (s : State) (w : Word) : (s.afterPush w).cyc = s.cyc - 2 := by
  simp [State.afterPush]; ring
@[simp] theorem State.afterPush_fault (s : State) (w : Word) : (s.afterPush w).fault = s.fault := rfl
@[simp] theorem State.afterPush_config (s : State) (w : Word) : (s.afterPush w).config = s.config := rfl

/-- A push stores to two cells only: the old `SP` and the one below. -/
theorem State.afterPush_byteAt_other (s : State) (w : Word) {other : Word} (h : other ≠ s.sp)
    (h' : other ≠ s.sp - 1#16) : (s.afterPush w).byteAt other = s.byteAt other :=
  ((s.afterHighPush w).byteAt_poke_other (lowByte w) h').trans (s.byteAt_poke_other (highByte w) h)

/-- The first write of a push stores to the old `SP` only. -/
theorem State.afterHighPush_byteAt_other (s : State) (w : Word) {other : Word} (h : other ≠ s.sp) :
    (s.afterHighPush w).byteAt other = s.byteAt other := s.byteAt_poke_other (highByte w) h

/-- The first write of a push stores the high byte. -/
theorem State.afterHighPush_byteAt_sp (s : State) (w : Word) (hm : s.mem.wf = true) :
    (s.afterHighPush w).byteAt s.sp = highByte w := s.byteAt_poke_self s.sp (highByte w) hm

/-- A push stores the low byte below the old `SP`. -/
theorem State.afterPush_byteAt_low (s : State) (w : Word) (hm : s.mem.wf = true) :
    (s.afterPush w).byteAt (s.sp - 1#16) = lowByte w :=
  (s.afterHighPush w).byteAt_poke_self (s.sp - 1#16) (lowByte w) (Memory.wf_poke _ _ hm)

/-- A push stores the high byte at the old `SP`. -/
theorem State.afterPush_byteAt_sp (s : State) (w : Word) (hm : s.mem.wf = true) :
    (s.afterPush w).byteAt s.sp = highByte w :=
  ((s.afterHighPush w).byteAt_poke_other (lowByte w) (show s.sp ≠ s.sp - 1#16 by bv_omega)).trans
    (s.afterHighPush_byteAt_sp w hm)

theorem pushWord_inRange (w : Word) (h : s.InRange s.sp) (h' : s.InRange (s.sp - 1#16)) :
    pushWord w s = .ok () (s.afterPush w) := by
  have hsp : s.sp - 1#16 - 1#16 = s.sp - 2#16 := by bv_omega
  have hlow : (s.afterHighPush w).InRange (s.afterHighPush w).sp := h'
  have := writeByte_inRange (lowByte w) hlow
  simp only [pushWord, writeByte_inRange _ h, Res.bind_ok]
  change (writeByte (s.afterHighPush w).sp (lowByte w) (s.afterHighPush w)).bind _ = _
  rw [this, Res.bind_ok, State.afterPush, ← hsp]
  rfl

theorem pushWord_lowOutOfRange (w : Word) (h : s.InRange s.sp) (h' : ¬ s.InRange (s.sp - 1#16)) :
    pushWord w s = .raised ((s.afterHighPush w).setFault (.addressOutOfRange (s.sp - 1#16))) := by
  have hlow : ¬ (s.afterHighPush w).InRange (s.afterHighPush w).sp := h'
  simp only [pushWord, writeByte_inRange _ h, Res.bind_ok]
  change (writeByte (s.afterHighPush w).sp (lowByte w) (s.afterHighPush w)).bind _ = _
  rw [writeByte_outOfRange _ hlow]
  rfl

theorem pushWord_outOfRange (w : Word) (h : ¬ s.InRange s.sp) :
    pushWord w s = .raised (s.setFault (.addressOutOfRange s.sp)) := by
  simp only [pushWord, writeByte_outOfRange _ h, Res.bind_raised]

end Sys2Proof.Machine
end

