-- ==== Sys2Proof/Laws/Step.lean ====
section
/-! SUPPORT. What a step can do, said once: `StepCase s t` lists every way a step from an unfaulted `s` can end in `t`, and
`exists_stepCase`, `stepCase_of_next` and
`step_of_stepCase` say that these are all, and that each is what the step does. Later proofs split on the cases instead of unfolding `step`. -/

namespace Sys2Proof.Machine

/-- The state after a load of `r` into the accumulator. -/
def State.afterLoad (s : State) (r : Byte) : State := updateZN r (s.setA r)

@[simp] theorem State.afterLoad_a (s : State) (r : Byte) : (s.afterLoad r).a = r := rfl
@[simp] theorem State.afterLoad_x (s : State) (r : Byte) : (s.afterLoad r).x = s.x := rfl
@[simp] theorem State.afterLoad_y (s : State) (r : Byte) : (s.afterLoad r).y = s.y := rfl
@[simp] theorem State.afterLoad_pc (s : State) (r : Byte) : (s.afterLoad r).pc = s.pc := rfl
@[simp] theorem State.afterLoad_sp (s : State) (r : Byte) : (s.afterLoad r).sp = s.sp := rfl
@[simp] theorem State.afterLoad_flags (s : State) (r : Byte) : (s.afterLoad r).flags = { s.flags with z := zeroFlag r, n := negativeFlag r } := rfl
@[simp] theorem State.afterLoad_mem (s : State) (r : Byte) : (s.afterLoad r).mem = s.mem := rfl
@[simp] theorem State.afterLoad_cyc (s : State) (r : Byte) : (s.afterLoad r).cyc = s.cyc := rfl
@[simp] theorem State.afterLoad_fault (s : State) (r : Byte) : (s.afterLoad r).fault = s.fault := rfl
@[simp] theorem State.afterLoad_config (s : State) (r : Byte) : (s.afterLoad r).config = s.config := rfl
@[simp] theorem State.afterLoad_byteAt (s : State) (r : Byte) (addr : Word) :
    (s.afterLoad r).byteAt addr = s.byteAt addr := rfl

/-- Every way a step can end. `o` is the dispatch-table entry of the byte at `PC`. -/
inductive StepCase (s : State) : State → Prop
  | opcodeOut (h : ¬ s.InRange s.pc) : StepCase s (s.setFault (.addressOutOfRange s.pc))
  | unknownFault (h : s.InRange s.pc) (miss : s.config.lookup (s.byteAt s.pc) = none)
      (policy : s.config.unknownOpcodePolicy = .fault) :
      StepCase s ((s.afterFetch 1).setFault (.unknownOpcode (s.byteAt s.pc) s.pc))
  | unknownNop (h : s.InRange s.pc) (miss : s.config.lookup (s.byteAt s.pc) = none)
      (policy : s.config.unknownOpcodePolicy = .nop) : StepCase s (s.afterFetch 1)
  | operandOut (o : Operation) (h : s.InRange s.pc) (hit : s.config.lookup (s.byteAt s.pc) = some o)
      (h1 : ¬ s.InRange (s.pc + 1#16)) :
      StepCase s ((s.afterFetch 1).setFault (.addressOutOfRange (s.pc + 1#16)))
  | highOperandOut (h : s.InRange s.pc) (hit : s.config.lookup (s.byteAt s.pc) = some .jsrAbs)
      (h1 : s.InRange (s.pc + 1#16)) (h2 : ¬ s.InRange (s.pc + 2#16)) :
      StepCase s ((s.afterFetch 2).setFault (.addressOutOfRange (s.pc + 2#16)))
  | ldaImm (h : s.InRange s.pc) (hit : s.config.lookup (s.byteAt s.pc) = some .ldaImm)
      (h1 : s.InRange (s.pc + 1#16)) : StepCase s ((s.afterFetch 2).afterLoad (s.byteAt (s.pc + 1#16)))
  | ldaZpOut (h : s.InRange s.pc) (hit : s.config.lookup (s.byteAt s.pc) = some .ldaZp)
      (h1 : s.InRange (s.pc + 1#16)) (h2 : ¬ s.InRange (zeroPageAddress (s.byteAt (s.pc + 1#16)))) :
      StepCase s ((s.afterFetch 2).setFault (.addressOutOfRange (zeroPageAddress (s.byteAt (s.pc + 1#16)))))
  | ldaZp (h : s.InRange s.pc) (hit : s.config.lookup (s.byteAt s.pc) = some .ldaZp)
      (h1 : s.InRange (s.pc + 1#16)) (h2 : s.InRange (zeroPageAddress (s.byteAt (s.pc + 1#16)))) :
      StepCase s ((s.afterFetch 2).spend.afterLoad (s.byteAt (zeroPageAddress (s.byteAt (s.pc + 1#16)))))
  | ldaZpXOut (h : s.InRange s.pc) (hit : s.config.lookup (s.byteAt s.pc) = some .ldaZpX)
      (h1 : s.InRange (s.pc + 1#16)) (h2 : ¬ s.InRange (zeroPageXAddress (s.byteAt (s.pc + 1#16)) s)) :
      StepCase s
        ((s.afterFetch 2).spend.setFault (.addressOutOfRange (zeroPageXAddress (s.byteAt (s.pc + 1#16)) s)))
  | ldaZpX (h : s.InRange s.pc) (hit : s.config.lookup (s.byteAt s.pc) = some .ldaZpX)
      (h1 : s.InRange (s.pc + 1#16)) (h2 : s.InRange (zeroPageXAddress (s.byteAt (s.pc + 1#16)) s)) :
      StepCase s
        ((s.afterFetch 2).spend.spend.afterLoad (s.byteAt (zeroPageXAddress (s.byteAt (s.pc + 1#16)) s)))
  | pushOut (h : s.InRange s.pc) (hit : s.config.lookup (s.byteAt s.pc) = some .jsrAbs)
      (h1 : s.InRange (s.pc + 1#16)) (h2 : s.InRange (s.pc + 2#16)) (h3 : ¬ s.InRange s.sp) :
      StepCase s ((s.afterFetch 3).setFault (.addressOutOfRange s.sp))
  | lowPushOut (h : s.InRange s.pc) (hit : s.config.lookup (s.byteAt s.pc) = some .jsrAbs)
      (h1 : s.InRange (s.pc + 1#16)) (h2 : s.InRange (s.pc + 2#16)) (h3 : s.InRange s.sp)
      (h4 : ¬ s.InRange (s.sp - 1#16)) :
      StepCase s
        (((s.afterFetch 3).afterHighPush (s.pc + 3#16)).setFault (.addressOutOfRange (s.sp - 1#16)))
  | jsrAbs (h : s.InRange s.pc) (hit : s.config.lookup (s.byteAt s.pc) = some .jsrAbs)
      (h1 : s.InRange (s.pc + 1#16)) (h2 : s.InRange (s.pc + 2#16)) (h3 : s.InRange s.sp)
      (h4 : s.InRange (s.sp - 1#16)) :
      StepCase s
        ((((s.afterFetch 3).afterPush (s.pc + 3#16)).setPc
          (concatBytes (s.byteAt (s.pc + 2#16)) (s.byteAt (s.pc + 1#16)))).spend)

/-! ## The meanings, once their bytes are fetched -/

variable {s : State}

theorem exec_ldaImm (b : Byte) (s : State) : exec (.ldaImm b) s = .next (s.afterLoad b) := rfl

theorem exec_ldaZp_inRange {b : Byte} (h : s.InRange (zeroPageAddress b)) :
    exec (.ldaZp b) s = .next (s.spend.afterLoad (s.byteAt (zeroPageAddress b))) := by
  simp only [exec, execLdaZp, zeroPageOperand, readByte_inRange h, Res.bind_ok]; rfl

theorem exec_ldaZp_outOfRange {b : Byte} (h : ¬ s.InRange (zeroPageAddress b)) :
    exec (.ldaZp b) s = .next (s.setFault (.addressOutOfRange (zeroPageAddress b))) := by
  simp only [exec, execLdaZp, zeroPageOperand, readByte_outOfRange h, Res.bind_raised]; rfl

theorem exec_ldaZpX_inRange {b : Byte} (h : s.InRange (zeroPageXAddress b s)) :
    exec (.ldaZpX b) s = .next (s.spend.spend.afterLoad (s.byteAt (zeroPageXAddress b s))) := by
  have h' : s.spend.InRange (zeroPageXAddress b s) := h
  simp only [exec, execLdaZpX, zeroPageXOperand, readByte_inRange h', Res.bind_ok]; rfl

theorem exec_ldaZpX_outOfRange {b : Byte} (h : ¬ s.InRange (zeroPageXAddress b s)) :
    exec (.ldaZpX b) s = .next (s.spend.setFault (.addressOutOfRange (zeroPageXAddress b s))) := by
  have h' : ¬ s.spend.InRange (zeroPageXAddress b s) := h
  simp only [exec, execLdaZpX, zeroPageXOperand, readByte_outOfRange h', Res.bind_raised]; rfl

theorem exec_jsrAbs_inRange (target : Word) (h : s.InRange s.sp) (h' : s.InRange (s.sp - 1#16)) :
    exec (.jsrAbs target) s = .next ((s.afterPush s.pc).setPc target).spend := by
  simp only [exec, execJsrAbs, jumpSubroutine, pushWord_inRange _ h h', Res.bind_ok]; rfl

theorem exec_jsrAbs_lowOutOfRange (target : Word) (h : s.InRange s.sp) (h' : ¬ s.InRange (s.sp - 1#16)) :
    exec (.jsrAbs target) s =
      .next ((s.afterHighPush s.pc).setFault (.addressOutOfRange (s.sp - 1#16))) := by
  simp only [exec, execJsrAbs, jumpSubroutine, pushWord_lowOutOfRange _ h h', Res.bind_raised]; rfl

theorem exec_jsrAbs_outOfRange (target : Word) (h : ¬ s.InRange s.sp) :
    exec (.jsrAbs target) s = .next (s.setFault (.addressOutOfRange s.sp)) := by
  simp only [exec, execJsrAbs, jumpSubroutine, pushWord_outOfRange _ h, Res.bind_raised]; rfl

/-! ## Fetching an instruction -/

theorem fetchInstr_opcodeOut (h : ¬ s.InRange s.pc) :
    fetchInstr s = .raised (s.setFault (.addressOutOfRange s.pc)) := by
  rw [fetchInstr, fetchByte_outOfRange h]; rfl

theorem fetchInstr_unknown (h : s.InRange s.pc) (miss : s.config.lookup (s.byteAt s.pc) = none) :
    fetchInstr s = .ok (.unknown (s.byteAt s.pc)) (s.afterFetch 1) := by
  rw [fetchInstr, fetchByte_inRange h, Res.bind_ok, Config.operandCount_of_miss miss, fetchBytes, Res.bind_ok,
    decode_of_miss miss]
  rfl

theorem fetchInstr_operandOut {o : Operation} (h : s.InRange s.pc)
    (hit : s.config.lookup (s.byteAt s.pc) = some o) (h1 : ¬ s.InRange (s.pc + 1#16)) :
    fetchInstr s = .raised ((s.afterFetch 1).setFault (.addressOutOfRange (s.pc + 1#16))) := by
  have h1' : ¬ (s.afterFetch 1).InRange (s.afterFetch 1).pc := h1
  have hfetch := fetchByte_outOfRange h1'
  rw [fetchInstr, fetchByte_inRange h, Res.bind_ok, Config.operandCount_of_lookup hit]
  cases o <;> simp only [Operation.mode, AddressingMode.operandBytes, fetchBytes, hfetch, Res.bind_raised] <;> rfl

theorem fetchInstr_highOperandOut (h : s.InRange s.pc) (hit : s.config.lookup (s.byteAt s.pc) = some .jsrAbs)
    (h1 : s.InRange (s.pc + 1#16)) (h2 : ¬ s.InRange (s.pc + 2#16)) :
    fetchInstr s = .raised ((s.afterFetch 2).setFault (.addressOutOfRange (s.pc + 2#16))) := by
  have h1' : (s.afterFetch 1).InRange (s.afterFetch 1).pc := h1
  have h2' : ¬ (s.afterFetch 2).InRange (s.afterFetch 2).pc := h2
  have hlow := fetchByte_inRange h1'
  have hhigh := fetchByte_outOfRange h2'
  rw [State.afterFetch_afterFetch] at hlow
  rw [fetchInstr, fetchByte_inRange h, Res.bind_ok, Config.operandCount_of_lookup hit]
  simp only [Operation.mode, AddressingMode.operandBytes, fetchBytes, hlow, hhigh, Res.bind_ok, Res.bind_raised]
  rfl

/-- Fetching an instruction whose operand bytes are all there: the operand bytes are those after the opcode. -/
theorem fetchInstr_known {o : Operation} (h : s.InRange s.pc) (hit : s.config.lookup (s.byteAt s.pc) = some o)
    (hrest : ∀ k < o.mode.operandBytes, s.InRange (s.pc + 1#16 + BitVec.ofNat 16 k)) :
    fetchInstr s =
      .ok (Fetched.ofDecoded (s.byteAt s.pc)
        (decodeOperand (s.byteAt s.pc) o ((s.afterFetch 1).bytesFrom (s.pc + 1#16) o.mode.operandBytes)))
        (s.afterFetch o.length) := by
  have hfetch := fetchBytes_inRange o.mode.operandBytes (s.afterFetch 1) hrest
  rw [fetchInstr, fetchByte_inRange h, Res.bind_ok, Config.operandCount_of_lookup hit, hfetch, Res.bind_ok,
    decode_of_lookup hit, State.afterFetch_afterFetch]
  rfl

theorem fetchInstr_oneByte {o : Operation} {f : Byte → Instr} (ho : o.mode.operandBytes = 1)
    (hf : ∀ op b, decodeOperand op o [b] = .instr (f b) [])
    (h : s.InRange s.pc) (hit : s.config.lookup (s.byteAt s.pc) = some o) (h1 : s.InRange (s.pc + 1#16)) :
    fetchInstr s = .ok (.instr (f (s.byteAt (s.pc + 1#16)))) (s.afterFetch 2) := by
  rw [fetchInstr_known h hit (by rw [ho]; intro k hk; obtain rfl : k = 0 := by omega
                                 simpa using h1)]
  simp only [ho, State.bytesFrom, hf, Operation.length]
  rfl

theorem fetchInstr_jsrAbs (h : s.InRange s.pc) (hit : s.config.lookup (s.byteAt s.pc) = some .jsrAbs)
    (h1 : s.InRange (s.pc + 1#16)) (h2 : s.InRange (s.pc + 2#16)) :
    fetchInstr s = .ok (.instr (.jsrAbs (concatBytes (s.byteAt (s.pc + 2#16)) (s.byteAt (s.pc + 1#16)))))
      (s.afterFetch 3) := by
  have hpc : s.pc + 1#16 + 1#16 = s.pc + 2#16 := by bv_omega
  rw [fetchInstr_known h hit (by
    intro k hk
    rcases (show k = 0 ∨ k = 1 by simp [Operation.mode, AddressingMode.operandBytes] at hk; omega) with rfl | rfl
    · simpa using h1
    · rw [hpc]; exact h2)]
  simp only [Operation.mode, AddressingMode.operandBytes, State.bytesFrom, decodeOperand, Operation.length, hpc]
  rfl

/-! ## The step -/

/-- A step of a faulted core is the fault. -/
theorem step_of_faulted (h : s.fault ≠ .none) : step s = .fault (.coreFaulted s.fault) := by
  unfold step
  split
  · contradiction
  · rfl

/-- A step of an unfaulted core, by what the fetch gives. -/
theorem step_of_unfaulted (h : s.fault = .none) :
    step s = match fetchInstr s with
      | .raised t => .next t
      | .ok (.instr i) t => exec i t
      | .ok (.unknown op) t => (unknownOpcode op s.pc t).outcome := by
  cases s
  cases h
  rfl

/-- What each listed case says is what the step answers. -/
theorem step_of_stepCase {t : State} (h0 : s.fault = .none) (hc : StepCase s t) : step s = .next t := by
  have hconfig : (s.afterFetch 1).config = s.config := rfl
  rw [step_of_unfaulted h0]
  cases hc with
  | opcodeOut h => rw [fetchInstr_opcodeOut h]
  | unknownFault h miss policy =>
    rw [fetchInstr_unknown h miss]
    simp only [unknownOpcode, hconfig, policy]
    rfl
  | unknownNop h miss policy =>
    rw [fetchInstr_unknown h miss]
    simp only [unknownOpcode, hconfig, policy]
    rfl
  | operandOut o h hit h1 => rw [fetchInstr_operandOut h hit h1]
  | highOperandOut h hit h1 h2 => rw [fetchInstr_highOperandOut h hit h1 h2]
  | ldaImm h hit h1 =>
    rw [fetchInstr_oneByte (f := .ldaImm) rfl (fun _ _ => rfl) h hit h1]
    exact exec_ldaImm _ (s.afterFetch 2)
  | ldaZpOut h hit h1 h2 =>
    rw [fetchInstr_oneByte (f := .ldaZp) rfl (fun _ _ => rfl) h hit h1]
    exact exec_ldaZp_outOfRange (s := s.afterFetch 2) h2
  | ldaZp h hit h1 h2 =>
    rw [fetchInstr_oneByte (f := .ldaZp) rfl (fun _ _ => rfl) h hit h1]
    exact exec_ldaZp_inRange (s := s.afterFetch 2) h2
  | ldaZpXOut h hit h1 h2 =>
    rw [fetchInstr_oneByte (f := .ldaZpX) rfl (fun _ _ => rfl) h hit h1]
    exact exec_ldaZpX_outOfRange (s := s.afterFetch 2) h2
  | ldaZpX h hit h1 h2 =>
    rw [fetchInstr_oneByte (f := .ldaZpX) rfl (fun _ _ => rfl) h hit h1]
    exact exec_ldaZpX_inRange (s := s.afterFetch 2) h2
  | pushOut h hit h1 h2 h3 =>
    rw [fetchInstr_jsrAbs h hit h1 h2]
    exact exec_jsrAbs_outOfRange (s := s.afterFetch 3) _ h3
  | lowPushOut h hit h1 h2 h3 h4 =>
    rw [fetchInstr_jsrAbs h hit h1 h2]
    exact exec_jsrAbs_lowOutOfRange (s := s.afterFetch 3) _ h3 h4
  | jsrAbs h hit h1 h2 h3 h4 =>
    rw [fetchInstr_jsrAbs h hit h1 h2]
    exact exec_jsrAbs_inRange (s := s.afterFetch 3) _ h3 h4

/-- One of the listed cases holds in every state. -/
theorem exists_stepCase (s : State) : ∃ t, StepCase s t := by
  by_cases h : s.InRange s.pc
  swap
  · exact ⟨_, .opcodeOut h⟩
  cases hit : s.config.lookup (s.byteAt s.pc) with
  | none =>
    cases policy : s.config.unknownOpcodePolicy with
    | fault => exact ⟨_, .unknownFault h hit policy⟩
    | nop => exact ⟨_, .unknownNop h hit policy⟩
  | some o =>
    by_cases h1 : s.InRange (s.pc + 1#16)
    swap
    · exact ⟨_, .operandOut o h hit h1⟩
    cases o with
    | ldaImm => exact ⟨_, .ldaImm h hit h1⟩
    | ldaZp =>
      by_cases h2 : s.InRange (zeroPageAddress (s.byteAt (s.pc + 1#16)))
      · exact ⟨_, .ldaZp h hit h1 h2⟩
      · exact ⟨_, .ldaZpOut h hit h1 h2⟩
    | ldaZpX =>
      by_cases h2 : s.InRange (zeroPageXAddress (s.byteAt (s.pc + 1#16)) s)
      · exact ⟨_, .ldaZpX h hit h1 h2⟩
      · exact ⟨_, .ldaZpXOut h hit h1 h2⟩
    | jsrAbs =>
      by_cases h2 : s.InRange (s.pc + 2#16)
      swap
      · exact ⟨_, .highOperandOut h hit h1 h2⟩
      by_cases h3 : s.InRange s.sp
      swap
      · exact ⟨_, .pushOut h hit h1 h2 h3⟩
      by_cases h4 : s.InRange (s.sp - 1#16)
      · exact ⟨_, .jsrAbs h hit h1 h2 h3 h4⟩
      · exact ⟨_, .lowPushOut h hit h1 h2 h3 h4⟩

/-- A step that answers a next state started from an unfaulted core and did one of the listed things. -/
theorem stepCase_of_next {t : State} (h : step s = .next t) : s.fault = .none ∧ StepCase s t := by
  by_cases h0 : s.fault = .none
  · obtain ⟨u, hc⟩ := exists_stepCase s
    rw [step_of_stepCase h0 hc] at h
    cases h
    exact ⟨h0, hc⟩
  · rw [step_of_faulted h0] at h
    cases h

end Sys2Proof.Machine
end

