-- ==== Sys2Proof/Laws/Execute.lean ====
section
/-! SUPPORT. The execute loop: what a step does to the cycle count, and one equation for each way the loop goes on. -/

namespace Sys2Proof.Machine

variable {s t : State} {fuel : Nat}

/-- The host's run goes on from the next state of a step. -/
theorem core_run_succ {k : Nat} (h : step s = .next t) : core.run (k + 1) s = core.run k t := by
  simp only [Host.Core.run, show core.step s = .next t from h]

/-- R84, R87: a step never adds cycles, takes at most 6, and takes at least one unless it faults. -/
theorem StepCase.cyc_bounds (hc : StepCase s t) :
    t.cyc ≤ s.cyc ∧ s.cyc - 6 ≤ t.cyc ∧ (t.fault = .none → s.fault = .none → t.cyc < s.cyc) := by
  cases hc <;> simp <;> omega

/-- The loop stops where the run has ended. -/
theorem executeLoop_ended (h : s.BudgetExhausted ∨ s.fault ≠ .none) : executeLoop fuel s = .next s := by
  cases fuel with
  | zero => rfl
  | succ fuel => rw [executeLoop, if_pos h]

/-- The loop makes one step where the run has not ended. -/
theorem executeLoop_step (h : ¬ (s.BudgetExhausted ∨ s.fault ≠ .none)) (hs : step s = .next t) :
    executeLoop (fuel + 1) s = executeLoop fuel t := by
  rw [executeLoop, if_neg h, hs]

/-- A run that has not ended can make a step, which leaves less to spend if it does not fault. -/
theorem exists_step_of_running (h : ¬ (s.BudgetExhausted ∨ s.fault ≠ .none)) :
    ∃ t, step s = .next t ∧ (t.fault = .none → t.cyc < s.cyc) := by
  have h0 : s.fault = .none := by simpa using (not_or.mp h).2
  obtain ⟨t, hc⟩ := exists_stepCase s
  exact ⟨t, step_of_stepCase h0 hc, fun hf => hc.cyc_bounds.2.2 hf h0⟩

/-- As many instructions as there are cycles are enough: more fuel changes nothing. -/
theorem executeLoop_fuel {fuel fuel' : Nat} (h : s.cyc ≤ fuel) (h' : s.cyc ≤ fuel') :
    executeLoop fuel s = executeLoop fuel' s := by
  induction fuel generalizing s fuel' with
  | zero => rw [executeLoop_ended (.inl (by simpa using h)), executeLoop_ended (.inl (by simpa using h))]
  | succ n ih =>
    by_cases he : s.BudgetExhausted ∨ s.fault ≠ .none
    · rw [executeLoop_ended he, executeLoop_ended he]
    · obtain ⟨t, hs, hlt⟩ := exists_step_of_running he
      have hpos : 0 < s.cyc := by simpa using (not_or.mp he).1
      obtain ⟨m, rfl⟩ : ∃ m, fuel' = m + 1 := ⟨fuel' - 1, by omega⟩
      rw [executeLoop_step he hs, executeLoop_step he hs]
      by_cases hf : t.fault = .none
      · have := hlt hf
        exact ih (by omega) (by omega)
      · rw [executeLoop_ended (.inr hf), executeLoop_ended (.inr hf)]

end Sys2Proof.Machine
end

