-- ==== Sys2Proof/Laws/Inv.lean ====
section
/-! SUPPORT. The invariant and the operations: it depends on the memory and the parameters alone, and a write to a cell
that exists keeps it. -/

namespace Sys2Proof.Machine

/-- The invariant looks at the memory and the parameters only. -/
theorem State.Inv.of_same {s t : State} (h : s.Inv) (hmem : t.mem = s.mem) (hconfig : t.config = s.config) : t.Inv :=
  ⟨hconfig ▸ h.configWf, hmem ▸ h.memWf, hmem ▸ hconfig ▸ h.memWithin⟩

/-- Writing a cell that exists keeps the invariant. -/
theorem State.Inv.poke {s t : State} {a : Nat} {v : Byte} (h : s.Inv) (ha : a < s.config.memCapacity)
    (hmem : t.mem = s.mem.poke a v) (hconfig : t.config = s.config) : t.Inv :=
  ⟨hconfig ▸ h.configWf, hmem ▸ Memory.wf_poke a v h.memWf, by
    rw [hmem, hconfig]; exact Memory.within_poke v ha h.memWithin⟩

/-- Placing bytes from outside keeps the invariant and the parameters. -/
theorem State.Inv.placeBytes {s : State} (h : s.Inv) (addr : Word) (bytes : List Byte) :
    (s.placeBytes addr bytes).Inv ∧ (s.placeBytes addr bytes).config = s.config := by
  induction bytes generalizing s addr with
  | nil => exact ⟨h, rfl⟩
  | cons b rest ih =>
    by_cases hr : s.InRange addr
    · have hp : s.placeByte addr b = s.setMem (s.mem.poke addr.toNat b) := if_pos hr
      have := ih (s := s.placeByte addr b) (addr := addr + 1#16) (h.poke hr (by rw [hp]; rfl) (by rw [hp]; rfl))
      exact ⟨this.1, this.2.trans (by rw [hp]; rfl)⟩
    · have hp : s.placeByte addr b = s := if_neg hr
      have := ih (s := s) (addr := addr + 1#16) h
      rw [State.placeBytes, hp]
      exact this

end Sys2Proof.Machine
end

