-- ==== Sys2Proof/Laws/PerInstr.lean ====
section
/-! SUPPORT. Statements about every instruction as syntax, one lemma per constructor. -/

namespace Sys2Proof.Laws.EncodingStart

/-- R50, R51, R82: an instruction's encoding starts with the opcode byte of its dispatch-table entry and is as long as
the entry's format says. -/
def Statement (i : Instr) : Prop :=
  ∀ c : Config, (encode c i).head? = some (c.opcode i.operation) ∧ (encode c i).length = i.operation.length

theorem ldaImm (imm : Byte) : Statement (.ldaImm imm) := fun _ => ⟨rfl, rfl⟩

theorem ldaZp (zp : Byte) : Statement (.ldaZp zp) := fun _ => ⟨rfl, rfl⟩

theorem ldaZpX (zp : Byte) : Statement (.ldaZpX zp) := fun _ => ⟨rfl, rfl⟩

theorem jsrAbs (target : Word) : Statement (.jsrAbs target) := fun _ => ⟨rfl, rfl⟩

end Sys2Proof.Laws.EncodingStart
end

