-- ==== Sys2Proof/Tests/Slice0.lean ====
section
/-! SUPPORT. Tests. Expected results are those of spec/95_test_vectors.md (S and V numbers) or are written out from the
formats of R51. The last part shows, for every statement with hypotheses, a state that meets them. -/

namespace Sys2Proof.Tests

open Sys2Proof.Machine

/-! ## Helpers -/

/-- A core after reset with the parameters `c`, `PC` at `addr`, and `bytes` placed there. -/
def loadedWith (c : Config) (addr : Word) (bytes : List Byte) : State :=
  ((State.resetWith c).setPc addr).placeBytes addr bytes

def loaded (addr : Word) (bytes : List Byte) : State := loadedWith Config.default addr bytes

/-- 0x8000 cells. -/
def halfMemory : Config := { Config.default with memCapacity := 0x8000 }

/-- 0x80 cells. -/
def tinyMemory : Config := { Config.default with memCapacity := 0x80 }

def nopPolicy : Config := { Config.default with unknownOpcodePolicy := .nop }

def nextOf : Host.Outcome State Fault Refusal → Option State
  | .next t => some t
  | .fault _ => none
  | .refused _ => none

theorem eq_next_of_nextOf {o : Host.Outcome State Fault Refusal} {t : State} (h : nextOf o = some t) : o = .next t := by
  cases o <;> simp_all [nextOf]

/-- The state after one step, where there is one. -/
def after (s : State) : State := (nextOf (step s)).getD s

/-! ## Well-formedness: an ill-formed term for each check -/

theorem test_wf_default : Config.default.wf = true := by decide
theorem test_wf_refuses_no_memory : ({ Config.default with memCapacity := 0 } : Config).wf = false := by decide
theorem test_wf_refuses_capacity_above_65536 : ({ Config.default with memCapacity := 65537 } : Config).wf = false := by
  decide
theorem test_wf_refuses_budget_width_2 : ({ Config.default with budgetWidth := 2 } : Config).wf = false := by decide
theorem test_wf_refuses_equal_opcodes : ({ Config.default with opcJsr := 0xA9#8 } : Config).wf = false := by decide
theorem test_memory_wf_refuses_disorder : Memory.wf [(2, 0x01#8), (1, 0x01#8)] = false := by decide
theorem test_memory_wf_refuses_repeats : Memory.wf [(1, 0x01#8), (1, 0x02#8)] = false := by decide
theorem test_memory_wf_refuses_listed_zero : Memory.wf [(1, 0x00#8)] = false := by decide
theorem test_memory_within_refuses_missing_cell : Memory.within 0x80 [(0x80, 0x01#8)] = false := by decide

/-! ## Decoding and encoding, from R51 and R55 -/

/-- `10101001 iiiiiiii` -/
theorem test_decode_ldaImm : decode Config.default [0b10101001#8, 0b01000010#8] = .instr (.ldaImm 0x42#8) [] := by decide
/-- `10100101 zzzzzzzz` -/
theorem test_decode_ldaZp : decode Config.default [0b10100101#8, 0b00010000#8] = .instr (.ldaZp 0x10#8) [] := by decide
/-- `10110101 zzzzzzzz` -/
theorem test_decode_ldaZpX : decode Config.default [0b10110101#8, 0b10000000#8] = .instr (.ldaZpX 0x80#8) [] := by decide
/-- `00100000 llllllll hhhhhhhh` -/
theorem test_decode_jsrAbs :
    decode Config.default [0b00100000#8, 0b00110100#8, 0b00010010#8, 0xFF#8] = .instr (.jsrAbs 0x1234#16) [0xFF#8] := by
  decide
/-- R58: `JSR $hhll` is `20 ll hh`. -/
theorem test_encode_jsrAbs : encode Config.default (.jsrAbs 0x1234#16) = [0x20#8, 0x34#8, 0x12#8] := by decide
/-- R56: 0x00, 0xEA and 0x60 are unknown opcodes here. -/
theorem test_decode_unknown :
    decode Config.default [0x00#8] = .rejected (.unknownOpcode 0x00#8) ∧
    decode Config.default [0xEA#8] = .rejected (.unknownOpcode 0xEA#8) ∧
    decode Config.default [0x60#8] = .rejected (.unknownOpcode 0x60#8) := by decide
theorem test_decode_truncated :
    decode Config.default [] = .rejected .noBytes ∧
    decode Config.default [0xA9#8] = .rejected (.missingOperand 0xA9#8) := by decide
theorem test_decodeTableWord :
    decodeTableWord 16 0x42A9 = some (.ldaImm 0x42#8) ∧ decodeTableWord 8 0xFFB5 = some (.ldaZpX 0x00#8) ∧
    decodeTableWord 24 0x123420 = some (.jsrAbs 0x1234#16) ∧ decodeTableWord 8 0xEA = none := by decide
/-- The first step after reset runs the word placed by `withFetchWord`. -/
theorem test_withFetchWord :
    (after (State.reset.withFetchWord 16 0x42A9)).a = 0x42#8 ∧
    (after (State.reset.withFetchWord 24 0x424220)).pc = 0x4242#16 := by decide

/-! ## Primitives -/

/-- S1, at the top cell; and writing 0x00 lists nothing. -/
theorem test_memory_roundtrip :
    (Memory.poke [] 0xFFFF 0xAB#8).peek 0xFFFF = 0xAB#8 ∧ Memory.poke [(5, 0x01#8)] 5 0x00#8 = [] := by decide
/-- V4: `fetch_word` across the top of memory. -/
theorem test_fetchWord_wraps :
    fetchWord ((loaded 0xFFFF#16 [0xCD#8, 0xAB#8]).setCyc 2) =
      .ok 0xABCD#16 (((loaded 0xFFFF#16 [0xCD#8, 0xAB#8]).setPc 0x0001#16).setCyc 0) := by decide
/-- V7: `push_word` with `SP = 0x0000`. -/
theorem test_pushWord_wraps :
    pushWord 0xBEEF#16 ((State.reset.setSp 0x0000#16).setCyc 2) =
      .ok () (((State.reset.setSp 0xFFFE#16).setMem [(0x0000, 0xBE#8), (0xFFFF, 0xEF#8)]).setCyc 0) := by decide
/-- Section 2.1 of the vectors. -/
theorem test_flags :
    [0x00#8, 0x01#8, 0x7F#8, 0x80#8, 0xFF#8].map zeroFlag = [true, false, false, false, false] ∧
    [0x00#8, 0x01#8, 0x7F#8, 0x80#8, 0xFF#8].map negativeFlag = [false, false, false, true, true] := by decide

/-! ## Instructions -/

/-- S4: `A` and `N` are overwritten. -/
def ldaImmState : State :=
  (((loaded 0x1000#16 [0xA9#8, 0x00#8]).setA 0x55#8).setFlags { Flags.reset with n := true, c := true }).setCyc 2
theorem test_ldaImm_zero :
    nextOf (step ldaImmState) = some (((ldaImmState.setA 0x00#8).setFlags { Flags.reset with z := true, c := true }).setPc
      0x1002#16 |>.setCyc 0) := by decide
/-- V17: the operand fetch faults. -/
theorem test_ldaImm_operand_fault :
    let s := (loadedWith halfMemory 0x7FFF#16 [0xA9#8]).setCyc 2
    nextOf (step s) = some (((s.setPc 0x8000#16).setCyc 1).setFault (.addressOutOfRange 0x8000#16)) := by decide

/-- V21: it reads the zero page, not page 1. -/
def ldaZpState : State :=
  (((loaded 0x0200#16 [0xA5#8, 0xFF#8]).placeByte 0x00FF#16 0x01#8).placeByte 0x01FF#16 0x77#8).setCyc 3
theorem test_ldaZp_zero_page :
    nextOf (step ldaZpState) = some (((ldaZpState.setA 0x01#8).setPc 0x0202#16).setCyc 0) := by decide
/-- V23: it reads its own opcode. -/
theorem test_ldaZp_own_opcode :
    (after (loaded 0x0010#16 [0xA5#8, 0x10#8])).a = 0xA5#8 ∧
    (after (loaded 0x0010#16 [0xA5#8, 0x10#8])).flags.n = true := by decide

/-- V30: the index addition wraps; 0x0101 is a decoy. -/
def ldaZpXState : State :=
  (((loaded 0x0200#16 [0xB5#8, 0xFF#8]).placeByte 0x0001#16 0xFE#8).placeByte 0x0101#16 0xEE#8).setX 0x02#8 |>.setCyc 4
theorem test_ldaZpX_wraps :
    nextOf (step ldaZpXState) =
      some (((ldaZpXState.setA 0xFE#8).setFlags { Flags.reset with n := true }).setPc 0x0202#16 |>.setCyc 0) := by decide
/-- V35: the data read faults with three cycles deducted. -/
def ldaZpXFaultState : State := ((loadedWith tinyMemory 0x0010#16 [0xB5#8, 0x70#8]).setX 0x20#8).setCyc 4
theorem test_ldaZpX_data_fault :
    nextOf (step ldaZpXFaultState) =
      some (((ldaZpXFaultState.setPc 0x0012#16).setCyc 1).setFault (.addressOutOfRange 0x0090#16)) := by decide

/-- V44: the push overwrites the operand. -/
def jsrState : State := ((loaded 0x0200#16 [0x20#8, 0x00#8, 0x30#8]).setSp 0x0202#16).setCyc 6
theorem test_jsrAbs_overwrites_operand :
    nextOf (step jsrState) = some ((((jsrState.setPc 0x3000#16).setSp 0x0200#16).setCyc 0).setMem
      [(0x0200, 0x20#8), (0x0201, 0x03#8), (0x0202, 0x02#8)]) := by decide
/-- V50: the second push write faults. -/
def jsrLowPushState : State := ((loadedWith halfMemory 0x0200#16 [0x20#8, 0x34#8, 0x12#8]).setSp 0x0000#16).setCyc 6
theorem test_jsrAbs_second_push_fault :
    nextOf (step jsrLowPushState) = some ((((jsrLowPushState.setPc 0x0203#16).setSp 0xFFFF#16).setCyc 2).setMem
      ((0x0000, 0x02#8) :: jsrLowPushState.mem) |>.setFault (.addressOutOfRange 0xFFFF#16)) := by decide

/-- V60: an unknown opcode under the policy `fault`. -/
def unknownState : State := (loaded 0x0300#16 [0xEA#8, 0xA9#8, 0x01#8]).setCyc 10
theorem test_unknown_fault :
    nextOf (step unknownState) =
      some (((unknownState.setPc 0x0301#16).setCyc 9).setFault (.unknownOpcode 0xEA#8 0x0300#16)) := by decide
/-- V61, its first step: under the policy `nop`. -/
def unknownNopState : State := (loadedWith nopPolicy 0x0300#16 [0xEA#8, 0xA9#8, 0x01#8]).setCyc 3
theorem test_unknown_nop : nextOf (step unknownNopState) = some ((unknownNopState.setPc 0x0301#16).setCyc 2) := by decide

/-! ## Execute, reset and the host -/

/-- V46: `Execute(1)` runs a whole subroutine-jump. -/
theorem test_execute_overshoots :
    (nextOf (execute 1 jsrState)).map State.cyc = some (-5) ∧
    (nextOf (execute 1 jsrState)).map State.pc = some 0x3000#16 := by decide
/-- V65: a faulted core ignores Execute. -/
theorem test_execute_faulted : nextOf (execute 100 (after unknownState)) = some (after unknownState) := by decide
/-- V64: the first Execute after reset, nothing loaded. -/
theorem test_execute_after_reset :
    nextOf (execute 1 State.reset) =
      some ((State.reset.setPc 0xFFFD#16).setFault (.unknownOpcode 0x00#8 0xFFFC#16)) := by decide
/-- R124, R127: rejected requests change nothing. -/
theorem test_requests_rejected :
    request (.writeMem 0x8000 0x01#8) (State.resetWith halfMemory) =
      (.rejected .addressOutOfRange, State.resetWith halfMemory) ∧
    request (.writeReg (.x 0x05#8)) (after unknownState) = (.rejected .coreFaulted, after unknownState) ∧
    request (.execute (2 ^ 32)) State.reset = (.rejected .budgetTooWide, State.reset) := by decide
/-- R100: the spec's codes. -/
theorem test_fault_codes :
    FaultRecord.none.code = 0 ∧ (FaultRecord.addressOutOfRange 0x8000#16).code = 1 ∧
    (FaultRecord.unknownOpcode 0xEA#8 0x0300#16).code = 2 := by decide

/-! ## Witnesses: the hypotheses of the statements can be met -/

theorem test_witness_DecodeOfEncode : ∃ c : Config, c.wf = true := ⟨Config.default, by decide⟩
theorem test_witness_EncodeOfDecode :
    decode Config.default [0x20#8, 0xFF#8, 0xFF#8, 0x00#8] = .instr (.jsrAbs 0xFFFF#16) [0x00#8] := by decide
theorem test_witness_OpcodeAloneDecidesLength :
    Config.default.wf = true ∧ (0xA9#8 = Config.default.opcLdaImm) ∧ (0xA5#8 = Config.default.opcLdaZp) ∧
    (0xB5#8 = Config.default.opcLdaZpX) ∧ (0x20#8 = Config.default.opcJsr) ∧
    decode Config.default [0x20#8, 0x34#8] = .rejected (.missingOperand 0x20#8) ∧
    decode Config.default [0xA5#8, 0x34#8] = .instr (.ldaZp 0x34#8) [] := by decide

/-- The last cell is in range and the first address beyond is not: the boundary for every clause on ranges. -/
theorem test_witness_MemoryReadAfterWrite :
    (State.resetWith halfMemory).mem.wf = true ∧ (State.resetWith halfMemory).InRange 0x7FFF#16 ∧
    ¬ (State.resetWith halfMemory).InRange 0x8000#16 := by decide
theorem test_witness_ReadAndWriteByteLaws :
    (State.resetWith tinyMemory).mem.wf = true ∧ (State.resetWith tinyMemory).InRange 0x007F#16 ∧
    ¬ (State.resetWith tinyMemory).InRange 0x0080#16 := by decide
theorem test_witness_CanonicalMemoriesThatReadAlikeAreEqual :
    Memory.wf (Memory.poke [(7, 0x01#8)] 7 0x00#8) = true ∧ Memory.wf [] = true ∧
    ∀ addr : Nat, (Memory.poke [(7, 0x01#8)] 7 0x00#8).peek addr = Memory.peek [] addr :=
  ⟨by decide, by decide, fun _ => rfl⟩
theorem test_witness_FetchByteLaw :
    ((State.resetWith halfMemory).setPc 0x7FFF#16).InRange 0x7FFF#16 ∧
    ¬ ((State.resetWith halfMemory).setPc 0x8000#16).InRange 0x8000#16 := by decide
theorem test_witness_FetchWordLaw :
    (let s := (State.resetWith halfMemory).setPc 0x7FFE#16; s.InRange s.pc ∧ s.InRange (s.pc + 1#16)) ∧
    (let s := (State.resetWith halfMemory).setPc 0x7FFF#16; s.InRange s.pc ∧ ¬ s.InRange (s.pc + 1#16)) ∧
    (let s := (State.resetWith halfMemory).setPc 0xFFFF#16; ¬ s.InRange s.pc) := by decide
theorem test_witness_PushWordLaw :
    (let s := (State.resetWith halfMemory).setSp 0x0001#16
     s.mem.wf = true ∧ s.InRange s.sp ∧ s.InRange (s.sp - 1#16)) ∧
    (let s := (State.resetWith halfMemory).setSp 0x0000#16
     s.mem.wf = true ∧ s.InRange s.sp ∧ ¬ s.InRange (s.sp - 1#16)) ∧
    (let s := (State.resetWith halfMemory).setSp 0x8000#16; s.mem.wf = true ∧ ¬ s.InRange s.sp) := by decide
theorem test_witness_ResolverLaws :
    (let s := loadedWith tinyMemory 0x0010#16 [0x7F#8]
     s.InRange s.pc ∧ s.InRange (s.pc + 1#16) ∧ (0x007F#16).toNat = (s.byteAt s.pc).toNat ∧ s.InRange 0x007F#16) ∧
    (let s := loadedWith tinyMemory 0x007F#16 [0x80#8]
     s.InRange s.pc ∧ ¬ s.InRange (s.pc + 1#16) ∧ (0x0080#16).toNat = (s.byteAt s.pc).toNat ∧ ¬ s.InRange 0x0080#16) ∧
    (let s := (State.resetWith tinyMemory).setPc 0x0080#16; ¬ s.InRange s.pc) := by decide
theorem test_witness_IndexedResolverWrapsInZeroPage :
    (let s := (loaded 0x0200#16 [0xFF#8]).setX 0x02#8
     s.InRange s.pc ∧ (0x0001#16).toNat = ((s.byteAt s.pc).toNat + s.x.toNat) % 256 ∧ s.InRange 0x0001#16) ∧
    (let s := (loadedWith tinyMemory 0x0010#16 [0x70#8]).setX 0x10#8
     s.InRange s.pc ∧ (0x0080#16).toNat = ((s.byteAt s.pc).toNat + s.x.toNat) % 256 ∧ ¬ s.InRange 0x0080#16) ∧
    (let s := (State.resetWith tinyMemory).setPc 0x0080#16; ¬ s.InRange s.pc) := by decide
theorem test_witness_LoadsComplete :
    State.reset.fault = .none ∧ (0x00FF#16).toNat = (0xFF#8 : Byte).toNat ∧ State.reset.InRange 0x00FF#16 ∧
    (0x0001#16).toNat = ((0xFF#8 : Byte).toNat + ((State.reset.setX 0x02#8).x).toNat) % 256 ∧
    (State.reset.setX 0x02#8).InRange 0x0001#16 := by decide
theorem test_witness_SubroutineJumpCompletes :
    State.reset.fault = .none ∧ State.reset.mem.wf = true ∧ State.reset.InRange State.reset.sp ∧
    State.reset.InRange (State.reset.sp - 1#16) := by decide
theorem test_witness_LoadsFrame :
    exec (.ldaZpX 0xFF#8) State.reset = .next (((nextOf (exec (.ldaZpX 0xFF#8) State.reset)).getD State.reset)) ∧
    (nextOf (exec (.ldaZp 0x90#8) (State.resetWith tinyMemory))).map State.fault =
      some (.addressOutOfRange (zeroPageAddress 0x90#8)) :=
  ⟨eq_next_of_nextOf (by decide), by decide⟩
theorem test_witness_SubroutineJumpFrame :
    exec (.jsrAbs 0x1234#16) State.reset =
      .next (((nextOf (exec (.jsrAbs 0x1234#16) State.reset)).getD State.reset)) := eq_next_of_nextOf (by decide)
theorem test_witness_StepLoadImmediate :
    (let s := loadedWith halfMemory 0x7FFE#16 [0xA9#8, 0x42#8]
     s.fault = .none ∧ s.InRange s.pc ∧ s.byteAt s.pc = s.config.opcLdaImm ∧ s.InRange (s.pc + 1#16)) ∧
    (let s := loadedWith halfMemory 0x7FFF#16 [0xA9#8]
     s.fault = .none ∧ s.InRange s.pc ∧ s.byteAt s.pc = s.config.opcLdaImm ∧ ¬ s.InRange (s.pc + 1#16)) ∧
    (let s := loadedWith halfMemory 0x8000#16 []; s.fault = .none ∧ ¬ s.InRange s.pc) := by decide
theorem test_witness_StepLoadZeroPage :
    (let s := loadedWith tinyMemory 0x0010#16 [0xA5#8, 0x7F#8]
     s.fault = .none ∧ s.config.wf = true ∧ s.InRange s.pc ∧ s.byteAt s.pc = s.config.opcLdaZp ∧
     s.InRange (s.pc + 1#16) ∧ (0x007F#16).toNat = (s.byteAt (s.pc + 1#16)).toNat ∧ s.InRange 0x007F#16) ∧
    (let s := loadedWith tinyMemory 0x0010#16 [0xA5#8, 0x80#8]
     s.fault = .none ∧ s.config.wf = true ∧ s.InRange s.pc ∧ s.byteAt s.pc = s.config.opcLdaZp ∧
     s.InRange (s.pc + 1#16) ∧ (0x0080#16).toNat = (s.byteAt (s.pc + 1#16)).toNat ∧ ¬ s.InRange 0x0080#16) ∧
    (let s := loadedWith halfMemory 0x7FFF#16 [0xA5#8]
     s.fault = .none ∧ s.config.wf = true ∧ s.InRange s.pc ∧ s.byteAt s.pc = s.config.opcLdaZp ∧
     ¬ s.InRange (s.pc + 1#16)) ∧
    (let s := loadedWith halfMemory 0x8000#16 []; s.fault = .none ∧ s.config.wf = true ∧ ¬ s.InRange s.pc) := by decide
theorem test_witness_StepLoadZeroPageIndexed :
    (let s := (loadedWith tinyMemory 0x0010#16 [0xB5#8, 0xF0#8]).setX 0x20#8
     s.fault = .none ∧ s.config.wf = true ∧ s.InRange s.pc ∧ s.byteAt s.pc = s.config.opcLdaZpX ∧
     s.InRange (s.pc + 1#16) ∧ (0x0010#16).toNat = ((s.byteAt (s.pc + 1#16)).toNat + s.x.toNat) % 256 ∧
     s.InRange 0x0010#16) ∧
    (let s := (loadedWith tinyMemory 0x0010#16 [0xB5#8, 0x70#8]).setX 0x10#8
     s.fault = .none ∧ s.config.wf = true ∧ s.InRange s.pc ∧ s.byteAt s.pc = s.config.opcLdaZpX ∧
     s.InRange (s.pc + 1#16) ∧ (0x0080#16).toNat = ((s.byteAt (s.pc + 1#16)).toNat + s.x.toNat) % 256 ∧
     ¬ s.InRange 0x0080#16) ∧
    (let s := loadedWith halfMemory 0x7FFF#16 [0xB5#8]
     s.fault = .none ∧ s.config.wf = true ∧ s.InRange s.pc ∧ s.byteAt s.pc = s.config.opcLdaZpX ∧
     ¬ s.InRange (s.pc + 1#16)) ∧
    (let s := loadedWith halfMemory 0x8000#16 []; s.fault = .none ∧ s.config.wf = true ∧ ¬ s.InRange s.pc) := by decide
theorem test_witness_StepSubroutineJump_effect :
    (let s := (loadedWith halfMemory 0x0200#16 [0x20#8, 0x34#8, 0x12#8]).setSp 0x0001#16
     s.fault = .none ∧ s.config.wf = true ∧ s.mem.wf = true ∧ s.InRange s.pc ∧ s.byteAt s.pc = s.config.opcJsr ∧
     s.InRange (s.pc + 1#16) ∧ s.InRange (s.pc + 2#16) ∧
     (0x1234#16).toNat = (s.byteAt (s.pc + 2#16)).toNat * 256 + (s.byteAt (s.pc + 1#16)).toNat ∧
     s.InRange s.sp ∧ s.InRange (s.sp - 1#16)) ∧
    (let s := jsrLowPushState
     s.fault = .none ∧ s.config.wf = true ∧ s.mem.wf = true ∧ s.byteAt s.pc = s.config.opcJsr ∧
     s.InRange (s.pc + 2#16) ∧ s.InRange s.sp ∧ ¬ s.InRange (s.sp - 1#16)) := by decide
theorem test_witness_StepSubroutineJump_faults :
    (let s := (loadedWith halfMemory 0x0200#16 [0x20#8, 0x34#8, 0x12#8]).setSp 0x8000#16
     s.fault = .none ∧ s.mem.wf = true ∧ s.InRange (s.pc + 2#16) ∧ s.byteAt s.pc = s.config.opcJsr ∧
     ¬ s.InRange s.sp) ∧
    (let s := loadedWith halfMemory 0x7FFE#16 [0x20#8, 0x34#8]
     s.fault = .none ∧ s.mem.wf = true ∧ s.InRange (s.pc + 1#16) ∧ s.byteAt s.pc = s.config.opcJsr ∧
     ¬ s.InRange (s.pc + 2#16)) ∧
    (let s := loadedWith halfMemory 0x7FFF#16 [0x20#8]
     s.fault = .none ∧ s.mem.wf = true ∧ s.InRange s.pc ∧ s.byteAt s.pc = s.config.opcJsr ∧
     ¬ s.InRange (s.pc + 1#16)) := by decide
theorem test_witness_ReturnAddressIsRecoverable :
    jsrState.fault = .none ∧ jsrState.Inv ∧ jsrState.byteAt jsrState.pc = jsrState.config.opcJsr ∧
    step jsrState = .next (after jsrState) ∧ (after jsrState).fault = .none :=
  ⟨by decide, ⟨by decide, by decide, by decide⟩, by decide, eq_next_of_nextOf (by decide), by decide⟩
theorem test_witness_UnknownOpcodeFaults :
    (unknownState.fault = .none ∧ unknownState.config.unknownOpcodePolicy = .fault ∧
      unknownState.InRange unknownState.pc ∧ unknownState.config.lookup (unknownState.byteAt unknownState.pc) = none) ∧
    (let s := (State.resetWith halfMemory).setPc 0x8000#16
     s.fault = .none ∧ s.config.unknownOpcodePolicy = .fault ∧ ¬ s.InRange s.pc) := by decide
theorem test_witness_UnknownOpcodeIsOneCycleNop :
    (unknownNopState.fault = .none ∧ unknownNopState.config.unknownOpcodePolicy = .nop ∧
      unknownNopState.InRange unknownNopState.pc ∧
      unknownNopState.config.lookup (unknownNopState.byteAt unknownNopState.pc) = none) ∧
    (let s := (State.resetWith nopPolicy).setPc 0xFFFF#16
     s.config.lookup 0x00#8 = none ∧
     ∀ k : Nat, k < 2 → s.InRange (s.pc + BitVec.ofNat 16 k) ∧ s.byteAt (s.pc + BitVec.ofNat 16 k) = 0x00#8) ∧
    (let s := (State.resetWith { nopPolicy with memCapacity := 0x8000 }).setPc 0x8000#16
     s.fault = .none ∧ s.config.unknownOpcodePolicy = .nop ∧ ¬ s.InRange s.pc) := by decide
theorem test_witness_StepRunsTheDecodedInstruction :
    jsrState.fault = .none ∧
    decode jsrState.config (jsrState.bytesFrom jsrState.pc 3) = .instr (.jsrAbs 0x3000#16) [] ∧
    ∀ k : Nat, k < (Instr.jsrAbs 0x3000#16).operation.length → jsrState.InRange (jsrState.pc + BitVec.ofNat 16 k) := by
  decide
theorem test_witness_StepRefinesTheRulesPseudocode : State.reset.fault = .none := by decide
theorem test_witness_StepKeepsInvariant :
    jsrLowPushState.Inv ∧ step jsrLowPushState = .next (after jsrLowPushState) :=
  ⟨⟨by decide, by decide, by decide⟩, eq_next_of_nextOf (by decide)⟩
theorem test_witness_ResetMeetsInvariant : tinyMemory.wf = true := by decide
/-- For the statements about every step that answers a next state: a load, a fault, a jump and an unknown opcode. -/
theorem test_witness_next_steps :
    step ldaZpXState = .next (after ldaZpXState) ∧ step ldaZpXFaultState = .next (after ldaZpXFaultState) ∧
    step jsrState = .next (after jsrState) ∧ step unknownNopState = .next (after unknownNopState) :=
  ⟨eq_next_of_nextOf (by decide), eq_next_of_nextOf (by decide), eq_next_of_nextOf (by decide),
    eq_next_of_nextOf (by decide)⟩
/-- NoStepWritesIndexRegistersOrInertFlags, NoStepReadsTheCycleCount and FaultRecordIsTrue have the one hypothesis of a next step; here with a fault record of each kind. -/
theorem test_witness_FaultRecordIsTrue :
    (after ldaZpXFaultState).fault = .addressOutOfRange 0x0090#16 ∧
    (after unknownState).fault = .unknownOpcode 0xEA#8 0x0300#16 ∧ (after jsrState).fault = .none := by decide
theorem test_witness_IndexedLoadReadsOnlyItsCells :
    let s := ldaZpXState
    let m := s.mem.poke 0x00FF 0x11#8
    s.config.wf = true ∧ s.byteAt s.pc = s.config.opcLdaZpX ∧ m ≠ s.mem ∧
    (∀ addr : Word, addr = s.pc ∨ addr = s.pc + 1#16 ∨
      addr.toNat = ((s.byteAt (s.pc + 1#16)).toNat + s.x.toNat) % 256 → m.peek addr.toNat = s.byteAt addr) ∧
    step s = .next (after s) := by
  refine ⟨by decide, by decide, by decide, fun addr h => ?_, eq_next_of_nextOf (by decide)⟩
  have hne : addr.toNat ≠ 0x00FF := by
    rcases h with rfl | rfl | h
    · decide
    · decide
    · rw [h]; decide
  exact Memory.peek_poke_other _ _ hne
theorem test_witness_OnlySubroutineJumpMovesStackOrMemory :
    (after jsrState).sp ≠ jsrState.sp ∧ (after jsrState).byteAt 0x0202#16 ≠ jsrState.byteAt 0x0202#16 ∧
    (after jsrLowPushState).sp = jsrLowPushState.sp - 1#16 := by decide
theorem test_witness_CyclesOfAnUnfaultedStep :
    (after ldaImmState).fault = .none ∧ (after ldaZpState).fault = .none ∧ (after ldaZpXState).fault = .none ∧
    (after jsrState).fault = .none ∧ (after unknownNopState).fault = .none := by decide
theorem test_witness_DispatchTableDescribesTheStep :
    step ldaZpState = .next (after ldaZpState) ∧ (after ldaZpState).fault = .none ∧
    ldaZpState.config.lookup (ldaZpState.byteAt ldaZpState.pc) = some .ldaZp ∧
    jsrState.config.lookup (jsrState.byteAt jsrState.pc) = some .jsrAbs :=
  ⟨eq_next_of_nextOf (by decide), by decide, by decide, by decide⟩
/-- A load that writes `A` and the flags, and a jump that keeps both: the two alternatives. -/
theorem test_witness_NoStepReadsAccumulatorYOrFlags :
    (step ldaImmState = .next (after ldaImmState) ∧ (after ldaImmState).a ≠ ldaImmState.a) ∧
    (step jsrState = .next (after jsrState) ∧ (after jsrState).a = jsrState.a ∧
      (after jsrState).flags = jsrState.flags) :=
  ⟨⟨eq_next_of_nextOf (by decide), by decide⟩, eq_next_of_nextOf (by decide), by decide, by decide⟩
theorem test_witness_FlagsFollowTheLoadsOnly :
    (step ldaImmState = .next (after ldaImmState) ∧ (after ldaImmState).fault = .none ∧
      ldaImmState.byteAt ldaImmState.pc = ldaImmState.config.opcLdaImm) ∧
    (step unknownNopState = .next (after unknownNopState) ∧ (after unknownNopState).fault = .none ∧
      unknownNopState.byteAt unknownNopState.pc = 0xEA#8) :=
  ⟨⟨eq_next_of_nextOf (by decide), by decide, by decide⟩, eq_next_of_nextOf (by decide), by decide, by decide⟩
/-- The index addition at its wrap, the zero page at its end, the immediate, and an opcode that is no load. -/
theorem test_witness_LoadsShareOneEffect :
    (step ldaZpXState = .next (after ldaZpXState) ∧ (after ldaZpXState).fault = .none ∧ ldaZpXState.config.wf = true ∧
      ldaZpXState.byteAt ldaZpXState.pc = ldaZpXState.config.opcLdaZpX ∧
      (0x0001#16).toNat = ((ldaZpXState.byteAt (ldaZpXState.pc + 1#16)).toNat + ldaZpXState.x.toNat) % 256) ∧
    (step ldaZpState = .next (after ldaZpState) ∧ (after ldaZpState).fault = .none ∧
      ldaZpState.byteAt ldaZpState.pc = ldaZpState.config.opcLdaZp ∧
      (0x00FF#16).toNat = (ldaZpState.byteAt (ldaZpState.pc + 1#16)).toNat) ∧
    (step ldaImmState = .next (after ldaImmState) ∧ (after ldaImmState).fault = .none ∧
      ldaImmState.byteAt ldaImmState.pc = ldaImmState.config.opcLdaImm) ∧
    (step jsrState = .next (after jsrState) ∧ (after jsrState).fault = .none ∧
      jsrState.byteAt jsrState.pc = jsrState.config.opcJsr) :=
  ⟨⟨eq_next_of_nextOf (by decide), by decide, by decide, by decide, by decide⟩,
    ⟨eq_next_of_nextOf (by decide), by decide, by decide, by decide⟩,
    ⟨eq_next_of_nextOf (by decide), by decide, by decide⟩, eq_next_of_nextOf (by decide), by decide, by decide⟩
theorem test_witness_FullCapacityNeverFaultsOnAnAddress :
    unknownNopState.config.memCapacity = 65536 ∧ unknownNopState.config.unknownOpcodePolicy = .nop ∧
    step unknownNopState = .next (after unknownNopState) :=
  ⟨by decide, by decide, eq_next_of_nextOf (by decide)⟩
/-- The one step of a budget of 6 ends the run, and that of a budget of 7 does not. -/
theorem test_witness_ExecuteUnrolls :
    jsrState.fault = .none ∧
    (step (jsrState.setCyc 6) = .next (after (jsrState.setCyc 6)) ∧ (after (jsrState.setCyc 6)).cyc = 0) ∧
    (step (jsrState.setCyc 7) = .next (after (jsrState.setCyc 7)) ∧ (after (jsrState.setCyc 7)).cyc = 1 ∧
      (after (jsrState.setCyc 7)).fault = .none) :=
  ⟨by decide, ⟨eq_next_of_nextOf (by decide), by decide⟩, eq_next_of_nextOf (by decide), by decide, by decide⟩
theorem test_witness_ExecuteReloadsTheBudget :
    (after unknownState).fault ≠ .none ∧ unknownState.fault = .none := by decide
theorem test_witness_ExecuteTerminates : State.reset.fault = .none := by decide
theorem test_witness_SoftBudgetOvershoot :
    jsrState.fault = .none ∧ execute 1 jsrState = .next ((nextOf (execute 1 jsrState)).getD jsrState) ∧
    ((nextOf (execute 1 jsrState)).getD jsrState).fault = .none ∧ jsrState.config.wf = true ∧
    jsrState.byteAt jsrState.pc = jsrState.config.opcJsr :=
  ⟨by decide, eq_next_of_nextOf (by decide), by decide, by decide, by decide⟩
theorem test_witness_CycleCountStaysInRange :
    State.reset.config.wf = true ∧ (-5 : Int) ≤ State.reset.cyc ∧
    State.reset.cyc ≤ 2 ^ State.reset.config.budgetWidth - 1 := by decide
theorem test_witness_ExecuteOfOneIsOneStep : State.reset.fault = .none := by decide
theorem test_witness_CleanRunSpendsCycles : CleanRun 1 jsrState (after jsrState) :=
  ⟨eq_next_of_nextOf (by decide), by decide⟩
theorem test_witness_FaultIsFinalUntilReset :
    (after unknownState).fault ≠ .none ∧ Request.readState ≠ Request.reset := by decide
theorem test_witness_HostMemoryAccess :
    (let s := State.resetWith halfMemory
     s.fault = .none ∧ s.mem.wf = true ∧ 0x7FFF < s.config.memCapacity ∧ s.config.memCapacity ≤ 0x8000) ∧
    (request (.writeMem 0x8000 0x01#8) (State.resetWith halfMemory)).1 = .rejected .addressOutOfRange := by decide
theorem test_witness_HostRegisterWrites : State.reset.fault = .none := by decide
theorem test_witness_HostRequestsKeepInvariant : State.reset.Inv := ⟨by decide, by decide, by decide⟩

end Sys2Proof.Tests
end

/-! # The memory array (R31 to R33) -/

namespace Sys2Proof.Machine

/-- R33: a byte written in range is read back. Canonical form is what makes it so for a zero byte, which the memory
does not list: no later cell of the list has the same address. -/
theorem memRead_setMem_poke_self {s : State} {addr : Word} (v : Byte) (hin : s.InRange addr)
    (hwf : s.mem.wf = true) :
    memRead addr (s.setMem (s.mem.poke addr.toNat v)) = .ok v (s.setMem (s.mem.poke addr.toNat v)) := by
  have hin' : (s.setMem (s.mem.poke addr.toNat v)).InRange addr := hin
  rw [memRead_inRange hin', State.setMem_byteAt, s.byteAt_poke_self addr v hwf]

/-- Settles O6: each access is in range or not, and in range the state written is `s` with the cell poked. -/
theorem memoryReadAfterWrite : Obligations.MemoryReadAfterWrite := by
  unfold Obligations.MemoryReadAfterWrite
  intro s addr v hwf
  constructor
  · intro hin
    exact ⟨memRead_inRange hin, s.setMem (s.mem.poke addr.toNat v), memWrite_inRange v hin,
      memRead_setMem_poke_self v hin hwf, rfl, fun _ hne => s.byteAt_poke_other v hne⟩
  · intro hout
    exact ⟨memRead_outOfRange hout, memWrite_outOfRange v hout⟩

end Sys2Proof.Machine

/-! # The flags (R75 to R77) -/

namespace Sys2Proof.Machine

/-! ## The flag evaluator -/

/-- R75 in numbers. -/
theorem zeroFlag_iff (v : Byte) : zeroFlag v = true ↔ v.toNat = 0 := by
  simp [zeroFlag, BitVec.toNat_eq]

/-- R76: bit 7 is the most significant bit of a byte. -/
theorem negativeFlag_eq_msb (v : Byte) : negativeFlag v = v.msb := (BitVec.msb_eq_getLsbD_last v).symm

/-- R76 in numbers. -/
theorem negativeFlag_iff (v : Byte) : negativeFlag v = true ↔ 128 ≤ v.toNat := by
  simp [negativeFlag_eq_msb, BitVec.msb_eq_decide]

/-- No byte is both zero and negative: 0 is below 128. -/
theorem not_zeroFlag_and_negativeFlag (v : Byte) : ¬ (zeroFlag v = true ∧ negativeFlag v = true) := by
  rw [zeroFlag_iff, negativeFlag_iff]
  omega

/-- R77: the update writes `Z` and `N` and no other field, `cyc` included. -/
theorem updateZN_eq (r : Byte) (s : State) :
    updateZN r s = { s with flags := { s.flags with z := zeroFlag r, n := negativeFlag r } } := rfl

/-! ## What a step does to them -/

/-- The opcode bytes whose table entry defines a result are those of the three loads, also where opcode bytes coincide:
the loads stand first in the table. -/
theorem Config.lookup_definesResult_iff (c : Config) (op : Byte) :
    (c.lookup op).any Operation.definesResult = true ↔
      op = c.opcLdaImm ∨ op = c.opcLdaZp ∨ op = c.opcLdaZpX := by
  rw [c.lookup_eq]
  split_ifs <;> simp_all [Operation.definesResult]

variable {s t : State}

/-- R77: a step on a load opcode that does not fault recomputes `Z` and `N` from the new `A`. -/
theorem StepCase.flags_of_definesResult (hc : StepCase s t) (hf : t.fault = .none)
    (hload : (s.config.lookup (s.byteAt s.pc)).any Operation.definesResult = true) :
    t.flags = { s.flags with z := zeroFlag t.a, n := negativeFlag t.a } := by
  cases hc with
  | ldaImm => rfl
  | ldaZp => rfl
  | ldaZpX => rfl
  | unknownNop _ miss => simp [miss] at hload
  | jsrAbs _ hit => simp [hit, Operation.definesResult] at hload
  | _ => simp at hf

/-- R77: a step on any other opcode leaves `A` and all flags as they were, also where it faults. -/
theorem StepCase.keeps_a_and_flags (hc : StepCase s t)
    (hother : ¬ (s.config.lookup (s.byteAt s.pc)).any Operation.definesResult = true) :
    t.a = s.a ∧ t.flags = s.flags := by
  cases hc with
  | ldaImm _ hit => simp [hit, Operation.definesResult] at hother
  | ldaZp _ hit => simp [hit, Operation.definesResult] at hother
  | ldaZpX _ hit => simp [hit, Operation.definesResult] at hother
  | _ => simp

/-! ## The statements -/

/-- Settles O52: split on the ways a step can end; the table decides which opcodes load. -/
theorem flagsFollowTheLoadsOnly : Obligations.FlagsFollowTheLoadsOnly := by
  unfold Obligations.FlagsFollowTheLoadsOnly
  refine ⟨updateZN_eq, fun s t hstep hf => ?_⟩
  obtain ⟨-, hc⟩ := stepCase_of_next hstep
  simp only [← Config.lookup_definesResult_iff]
  refine ⟨fun hload => ?_, hc.keeps_a_and_flags⟩
  have hflags := hc.flags_of_definesResult hf hload
  refine ⟨hflags, ?_⟩
  rw [hflags]
  exact not_zeroFlag_and_negativeFlag t.a

/-- Settles O14, from the two flags in numbers. -/
theorem flagEvaluatorLaws : Obligations.FlagEvaluatorLaws := by
  unfold Obligations.FlagEvaluatorLaws
  intro v s
  exact ⟨zeroFlag_iff v, negativeFlag_iff v, updateZN_eq v s, not_zeroFlag_and_negativeFlag v⟩

end Sys2Proof.Machine

/-! # The load-accumulator family (R90 to R93) -/

namespace Sys2Proof.Machine

/-! ## Effective addresses in numbers -/

/-- R71: the zero-page address is the word with the number of the operand byte. -/
theorem eq_zeroPageAddress_iff {ea : Word} {b : Byte} : ea = zeroPageAddress b ↔ ea.toNat = b.toNat := by
  rw [BitVec.toNat_eq, zeroPageAddress, toNat_zeroExtend16]

/-- R72: the indexed address is the word with the sum of operand byte and `X`, modulo 256. -/
theorem eq_zeroPageXAddress_iff {ea : Word} {b : Byte} {s : State} :
    ea = zeroPageXAddress b s ↔ ea.toNat = (b.toNat + s.x.toNat) % 256 := by
  rw [BitVec.toNat_eq, zeroPageXAddress, toNat_zeroExtend16, BitVec.toNat_add]

/-! ## The operand byte of a load -/

/-- R93: how each operation obtains the byte it loads, its own bytes standing at `PC`; the jump loads none. -/
def State.loadOperand (s : State) : Operation → Option Byte
  | .ldaImm => some (s.byteAt (s.pc + 1#16))
  | .ldaZp => some (s.byteAt (zeroPageAddress (s.byteAt (s.pc + 1#16))))
  | .ldaZpX => some (s.byteAt (zeroPageXAddress (s.byteAt (s.pc + 1#16)) s))
  | .jsrAbs => none

/-- The operations with an operand byte to load are those that define a result. -/
theorem State.loadOperand_isSome (s : State) (o : Operation) : (s.loadOperand o).isSome = o.definesResult := by
  cases o <;> rfl

variable {s t : State} {o : Operation} {r : Byte}

/-- R93: a load that does not fault copies its operand byte to `A` and writes no memory. -/
theorem StepCase.a_mem_of_loadOperand (hc : StepCase s t) (hf : t.fault = .none)
    (hit : s.config.lookup (s.byteAt s.pc) = some o) (hr : s.loadOperand o = some r) :
    t.a = r ∧ t.mem = s.mem := by
  cases hc with
  | ldaImm _ hit' => cases hit.symm.trans hit'; exact ⟨Option.some.inj hr, rfl⟩
  | ldaZp _ hit' => cases hit.symm.trans hit'; exact ⟨Option.some.inj hr, rfl⟩
  | ldaZpX _ hit' => cases hit.symm.trans hit'; exact ⟨Option.some.inj hr, rfl⟩
  | unknownNop _ miss => cases hit.symm.trans miss
  | jsrAbs _ hit' => cases hit.symm.trans hit'; cases hr
  | _ => simp at hf

/-! ## The statement -/

/-- Settles O53: the opcode names the table entry, and the entry its operand byte; `A` and memory follow from the
way the step ended, the flags from the laws of R77. -/
theorem loadsShareOneEffect : Obligations.LoadsShareOneEffect := by
  unfold Obligations.LoadsShareOneEffect
  intro s t hwf hstep hf
  obtain ⟨-, hc⟩ := stepCase_of_next hstep
  refine ⟨fun r hmode => ?_, fun himm hzp hzpx => ?_⟩
  · obtain ⟨o, hop, hr⟩ : ∃ o, s.byteAt s.pc = s.config.opcode o ∧ s.loadOperand o = some r := by
      rcases hmode with ⟨hop, rfl⟩ | ⟨ea, rfl, ⟨hop, hea⟩ | ⟨hop, hea⟩⟩
      · exact ⟨.ldaImm, hop, rfl⟩
      · exact ⟨.ldaZp, hop, by rw [eq_zeroPageAddress_iff.mpr hea]; rfl⟩
      · exact ⟨.ldaZpX, hop, by rw [eq_zeroPageXAddress_iff.mpr hea]; rfl⟩
    have hit : s.config.lookup (s.byteAt s.pc) = some o := by rw [hop, Config.lookup_opcode hwf]
    obtain ⟨rfl, hmem⟩ := hc.a_mem_of_loadOperand hf hit hr
    have hflags := hc.flags_of_definesResult hf (by simp [hit, ← s.loadOperand_isSome o, hr])
    rw [hflags]
    exact ⟨rfl, zeroFlag_iff t.a, negativeFlag_iff t.a, rfl, rfl, rfl, rfl, rfl, fun addr => by
      rw [State.byteAt, hmem, State.byteAt]⟩
  · obtain ⟨ha, hflags⟩ := hc.keeps_a_and_flags (by simp [Config.lookup_definesResult_iff, himm, hzp, hzpx])
    exact ⟨ha, by rw [hflags], by rw [hflags]⟩

end Sys2Proof.Machine

/-! # Encoding and decoding (R50 to R57) -/

namespace Sys2Proof

/-! ## The operand bytes of an instruction -/

/-- R51: the bytes of an encoding after the opcode byte. -/
def Instr.operandBytes : Instr → List Byte
  | .ldaImm imm => [imm]
  | .ldaZp zp => [zp]
  | .ldaZpX zp => [zp]
  | .jsrAbs target => [lowByte target, highByte target]

/-- R51: an encoding is the opcode byte of the table entry, then the operand bytes. -/
theorem encode_eq (c : Config) (i : Instr) : encode c i = c.opcode i.operation :: i.operandBytes := by
  cases i <;> rfl

/-- R51, R53: a word operand is assembled from its two bytes and no others. -/
theorem word_bytes_iff {lo hi : Byte} {w : Word} : concatBytes hi lo = w ↔ lo = lowByte w ∧ hi = highByte w := by
  constructor
  · rintro rfl
    simp
  · rintro ⟨rfl, rfl⟩
    simp

/-- R53: the operand decoder answers exactly the instruction of that operation with these operand bytes. -/
theorem decodeOperand_eq_instr_iff {op : Byte} {o : Operation} {bytes rest : List Byte} {i : Instr} :
    decodeOperand op o bytes = .instr i rest ↔ i.operation = o ∧ bytes = i.operandBytes ++ rest := by
  cases o with
  | jsrAbs =>
    match bytes with
    | [] => cases i <;> simp [decodeOperand, Instr.operation, Instr.operandBytes]
    | [b] => cases i <;> simp [decodeOperand, Instr.operation, Instr.operandBytes]
    | lo :: hi :: _ =>
      cases i <;> simp [decodeOperand, Instr.operation, Instr.operandBytes, word_bytes_iff, and_assoc]
  | _ =>
    cases bytes <;> cases i <;> simp [decodeOperand, Instr.operation, Instr.operandBytes]

/-- R51: the operand decoder rejects exactly where the operand's bytes are not all there. -/
theorem decodeOperand_eq_missing_iff {op : Byte} {o : Operation} {bytes : List Byte} :
    decodeOperand op o bytes = .rejected (.missingOperand op) ↔ bytes.length < o.mode.operandBytes := by
  cases o with
  | jsrAbs =>
    match bytes with
    | [] => simp [decodeOperand, Operation.mode, AddressingMode.operandBytes]
    | [b] => simp [decodeOperand, Operation.mode, AddressingMode.operandBytes]
    | _ :: _ :: _ => simp [decodeOperand, Operation.mode, AddressingMode.operandBytes]
  | _ => cases bytes <;> simp [decodeOperand, Operation.mode, AddressingMode.operandBytes]

/-- The operand decoder answers an instruction, or rejects for a missing operand byte. -/
theorem decodeOperand_cases (op : Byte) (o : Operation) (bytes : List Byte) :
    (∃ i rest, decodeOperand op o bytes = .instr i rest) ∨
      decodeOperand op o bytes = .rejected (.missingOperand op) := by
  unfold decodeOperand
  split <;> simp

/-- R51: as many operand bytes as the mode of the entry says. -/
theorem Instr.operandBytes_length (i : Instr) : i.operandBytes.length = i.operation.mode.operandBytes := by
  cases i <;> rfl

/-- R50: three bytes is the longest instruction. -/
theorem AddressingMode.operandBytes_le (m : AddressingMode) : m.operandBytes ≤ 2 := by
  cases m <;> decide

/-- What decodes to an instruction starts with a byte whose table entry is that of the instruction, and goes on with its
operand bytes. -/
theorem decode_eq_instr_iff {c : Config} {op : Byte} {bytes rest : List Byte} {i : Instr} :
    decode c (op :: bytes) = .instr i rest ↔
      c.lookup op = some i.operation ∧ bytes = i.operandBytes ++ rest := by
  cases hl : c.lookup op with
  | none => simp [decode_of_miss hl]
  | some o => simp [decode_of_lookup hl, decodeOperand_eq_instr_iff, eq_comm]

/-! ## The statements -/

/-- Settles O2: under distinct opcode bytes the opcode byte of the encoding finds its own entry. -/
theorem decodeOfEncode : Obligations.DecodeOfEncode := by
  unfold Obligations.DecodeOfEncode
  intro c i rest hwf
  rw [encode_eq, List.cons_append, decode_eq_instr_iff]
  exact ⟨c.lookup_opcode hwf i.operation, rfl⟩

/-- Settles O3: an entry found is that of the opcode byte, so the first byte is the encoding's first. -/
theorem encodeOfDecode : Obligations.EncodeOfDecode := by
  unfold Obligations.EncodeOfDecode
  intro c bytes rest i h
  cases bytes with
  | nil => cases h
  | cons op bytes =>
    obtain ⟨hit, rfl⟩ := decode_eq_instr_iff.mp h
    rw [encode_eq, List.cons_append, ← Config.opcode_of_lookup hit]

/-- Settles O4: only a table miss is rejected as an unknown opcode. -/
theorem onlyFourOpcodesAreKnown : Obligations.OnlyFourOpcodesAreKnown := by
  unfold Obligations.OnlyFourOpcodesAreKnown
  intro c op rest
  rw [← Config.lookup_eq_none]
  cases hl : c.lookup op with
  | none => simp [decode_of_miss hl]
  | some o =>
    rw [decode_of_lookup hl]
    rcases decodeOperand_cases op o rest with ⟨i, rest', h⟩ | h <;> simp [h]

/-- R51: under legal parameters the jump's opcode byte is that of the only entry with two operand bytes. -/
theorem Config.operandBytes_of_lookup {c : Config} {op : Byte} {o : Operation} (hwf : c.wf = true)
    (hit : c.lookup op = some o) : o.mode.operandBytes = if op = c.opcJsr then 2 else 1 := by
  obtain ⟨-, -, himm, -, hzp, hzpx⟩ := Config.wf_opcodes hwf
  rw [Config.opcode_of_lookup hit]
  cases o <;> simp [Config.opcode, Operation.mode, AddressingMode.operandBytes, himm, hzp, hzpx]

/-- Settles O5: each of the four bytes has an entry, whose mode decides the count. -/
theorem opcodeAloneDecidesLength : Obligations.OpcodeAloneDecidesLength := by
  unfold Obligations.OpcodeAloneDecidesLength
  intro c op bytes hwf count hop
  obtain ⟨o, hit⟩ : ∃ o, c.lookup op = some o := by
    rcases hop with rfl | rfl | rfl | rfl
    · exact ⟨_, c.lookup_opcode hwf .ldaImm⟩
    · exact ⟨_, c.lookup_opcode hwf .ldaZp⟩
    · exact ⟨_, c.lookup_opcode hwf .ldaZpX⟩
    · exact ⟨_, c.lookup_opcode hwf .jsrAbs⟩
  have hcount : count = o.mode.operandBytes := (Config.operandBytes_of_lookup hwf hit).symm
  rw [decode_of_lookup hit, hcount, decodeOperand_eq_missing_iff]
  refine ⟨Iff.rfl, fun hlen => ?_⟩
  rcases decodeOperand_cases op o bytes with ⟨i, rest, h⟩ | h
  · obtain ⟨rfl, rfl⟩ := decodeOperand_eq_instr_iff.mp h
    exact ⟨i, by rw [h, ← i.operandBytes_length, List.drop_left]⟩
  · exact absurd (decodeOperand_eq_missing_iff.mp h) (by omega)

/-- Settles O1, by decoding the seven written words. -/
theorem writtenWordsDecode : Obligations.WrittenWordsDecode := by
  unfold Obligations.WrittenWordsDecode
  decide

end Sys2Proof

/-! # The canonical form of the memory array (R20) -/

namespace Sys2Proof.Machine

/-- Of two canonical memories that read alike, neither lists a first cell below the other's. -/
theorem Memory.not_lt_head_of_peek_eq {lo k k' : Nat} {b b' : Byte} {m m' : Memory}
    (hm : wfFrom lo ((k, b) :: m) = true) (hm' : wfFrom lo ((k', b') :: m') = true)
    (h : peek ((k, b) :: m) k = peek ((k', b') :: m') k) : ¬ k < k' := by
  intro hlt
  obtain ⟨-, hb, -⟩ := wfFrom_cons.mp hm
  have habove : wfFrom k' ((k', b') :: m') = true := wfFrom_cons.mpr ⟨le_rfl, (wfFrom_cons.mp hm').2⟩
  rw [peek_below habove hlt] at h
  exact hb (by simpa [peek] using h)

/-- Canonical memories are equal if they read alike: the first listed cells agree, and below them the rests list nothing. -/
theorem Memory.eq_of_peek_eq {lo : Nat} {m m' : Memory} (hm : wfFrom lo m = true) (hm' : wfFrom lo m' = true)
    (h : ∀ a, peek m a = peek m' a) : m = m' := by
  induction m generalizing lo m' with
  | nil =>
    cases m' with
    | nil => rfl
    | cons cell' m' => exact absurd (by simpa [peek] using (h cell'.1).symm) (wfFrom_cons.mp hm').2.1
  | cons cell m ih =>
    cases m' with
    | nil => exact absurd (by simpa [peek] using h cell.1) (wfFrom_cons.mp hm).2.1
    | cons cell' m' =>
      obtain ⟨k, b⟩ := cell
      obtain ⟨k', b'⟩ := cell'
      have hk : k = k' := le_antisymm
        (not_lt.mp (not_lt_head_of_peek_eq hm' hm (h k').symm)) (not_lt.mp (not_lt_head_of_peek_eq hm hm' (h k)))
      subst hk
      have hb : b = b' := by simpa [peek] using h k
      obtain ⟨-, -, hrest⟩ := wfFrom_cons.mp hm
      obtain ⟨-, -, hrest'⟩ := wfFrom_cons.mp hm'
      have htails : ∀ a, peek m a = peek m' a := by
        intro a
        by_cases ha : a = k
        · rw [peek_below hrest (by omega), peek_below hrest' (by omega)]
        · simpa [peek, ha] using h a
      rw [hb, ih hrest hrest' htails]

/-- Settles O7: canonical from address 0 on. -/
theorem canonicalMemoriesThatReadAlikeAreEqual : Obligations.CanonicalMemoriesThatReadAlikeAreEqual := by
  unfold Obligations.CanonicalMemoriesThatReadAlikeAreEqual
  exact fun _ _ => Memory.eq_of_peek_eq

end Sys2Proof.Machine

/-! # The primitives and the resolvers (R65 to R73) -/

namespace Sys2Proof.Machine

variable {s t : State} {addr : Word}

/-! ## Fetching on -/

/-- R65: the fetch of the byte after `k` others. -/
theorem fetchByte_afterFetch_inRange {k : Nat} (h : s.InRange (s.pc + BitVec.ofNat 16 k)) :
    fetchByte (s.afterFetch k) = .ok (s.byteAt (s.pc + BitVec.ofNat 16 k)) (s.afterFetch (k + 1)) := by
  have hfetch := fetchByte_inRange (s := s.afterFetch k) h
  rwa [State.afterFetch_afterFetch] at hfetch

/-- R65: the fetch of the byte after `k` others, where its cell does not exist. -/
theorem fetchByte_afterFetch_outOfRange {k : Nat} (h : ¬ s.InRange (s.pc + BitVec.ofNat 16 k)) :
    fetchByte (s.afterFetch k) =
      .raised ((s.afterFetch k).setFault (.addressOutOfRange (s.pc + BitVec.ofNat 16 k))) :=
  fetchByte_outOfRange (s := s.afterFetch k) h

theorem fetchWord_inRange (h : s.InRange s.pc) (h' : s.InRange (s.pc + 1#16)) :
    fetchWord s = .ok (concatBytes (s.byteAt (s.pc + 1#16)) (s.byteAt s.pc)) (s.afterFetch 2) := by
  rw [fetchWord, fetchByte_inRange h, Res.bind_ok, fetchByte_afterFetch_inRange h', Res.bind_ok]

theorem fetchWord_highOutOfRange (h : s.InRange s.pc) (h' : ¬ s.InRange (s.pc + 1#16)) :
    fetchWord s = .raised ((s.afterFetch 1).setFault (.addressOutOfRange (s.pc + 1#16))) := by
  rw [fetchWord, fetchByte_inRange h, Res.bind_ok, fetchByte_afterFetch_outOfRange h', Res.bind_raised]

theorem fetchWord_outOfRange (h : ¬ s.InRange s.pc) :
    fetchWord s = .raised (s.setFault (.addressOutOfRange s.pc)) := by
  rw [fetchWord, fetchByte_outOfRange h, Res.bind_raised]

/-- Settles O8: the fetch in range and out of range. -/
theorem fetchByteLaw : Obligations.FetchByteLaw := by
  unfold Obligations.FetchByteLaw
  exact fun s => ⟨fetchByte_inRange, fetchByte_outOfRange⟩

/-- Settles O9: low byte first, by how far the two fetches get. -/
theorem fetchWordLaw : Obligations.FetchWordLaw := by
  unfold Obligations.FetchWordLaw
  intro s
  exact ⟨fun h h' => ⟨_, toNat_concatBytes _ _, fetchWord_inRange h h'⟩, fetchWord_highOutOfRange,
    fetchWord_outOfRange⟩

/-! ## Reading, writing, pushing -/

/-- Two states that agree but for the cycle count, and in the count, are equal. -/
theorem State.eq_of_cyc_eq (h : s.setCyc 0 = t.setCyc 0) (hcyc : s.cyc = t.cyc) : s = t := by
  cases s
  cases t
  simp_all [State.setCyc]

/-- Settles O10: a write is seen in its own cell only. -/
theorem readAndWriteByteLaws : Obligations.ReadAndWriteByteLaws := by
  unfold Obligations.ReadAndWriteByteLaws
  intro s addr v hwf
  refine ⟨fun h => ⟨readByte_inRange h, _, writeByte_inRange v h, rfl, fun other => ?_⟩,
    fun h => ⟨readByte_outOfRange h, writeByte_outOfRange v h⟩⟩
  split
  · next heq => exact heq ▸ s.byteAt_poke_self addr v hwf
  · next hne => exact s.byteAt_poke_other v hne

/-- The memory after a push: the high byte at the old `SP`, then the low byte below it. -/
@[simp] theorem State.afterPush_mem (s : State) (w : Word) :
    (s.afterPush w).mem = (s.mem.poke s.sp.toNat (highByte w)).poke (s.sp - 1#16).toNat (lowByte w) := rfl

/-- R69: after a push the word stands little-endian above the new `SP`. -/
theorem State.afterPush_word (s : State) (w : Word) (hm : s.mem.wf = true) :
    ((s.afterPush w).byteAt (s.sp - 2#16 + 2#16)).toNat * 256 +
      ((s.afterPush w).byteAt (s.sp - 2#16 + 1#16)).toNat = w.toNat := by
  rw [show s.sp - 2#16 + 2#16 = s.sp by bv_omega, show s.sp - 2#16 + 1#16 = s.sp - 1#16 by bv_omega,
    s.afterPush_byteAt_sp w hm, s.afterPush_byteAt_low w hm, ← toNat_concatBytes, concatBytes_highByte_lowByte]

/-- The bytes after the first write of a push. -/
theorem State.afterHighPush_byteAt (s : State) (w : Word) (hm : s.mem.wf = true) (addr : Word) :
    (s.afterHighPush w).byteAt addr = if addr = s.sp then highByte w else s.byteAt addr := by
  split
  · next heq => exact heq ▸ s.afterHighPush_byteAt_sp w hm
  · next hne => exact s.afterHighPush_byteAt_other w hne

/-- Settles O11, by how far the two writes get. -/
theorem pushWordLaw : Obligations.PushWordLaw := by
  unfold Obligations.PushWordLaw
  intro s w hwf
  refine ⟨fun h h' => ⟨s.afterPush w, pushWord_inRange w h h', ?_, s.afterPush_byteAt_sp w hwf,
      s.afterPush_byteAt_low w hwf, s.afterPush_word w hwf, fun _ => s.afterPush_byteAt_other w⟩,
    fun h h' => ⟨_, pushWord_lowOutOfRange w h h', rfl, s.afterHighPush_byteAt w hwf⟩,
    pushWord_outOfRange w⟩
  ext1 <;> simp

/-! ## The resolvers -/

theorem resolveZeroPage_inRange (h : s.InRange s.pc) (h' : s.InRange (zeroPageAddress (s.byteAt s.pc))) :
    resolveZeroPage s = .ok (s.byteAt (zeroPageAddress (s.byteAt s.pc))) (s.afterFetch 1).spend := by
  rw [resolveZeroPage, fetchByte_inRange h, Res.bind_ok]
  exact readByte_inRange (s := s.afterFetch 1) h'

theorem resolveZeroPage_outOfRange (h : s.InRange s.pc) (h' : ¬ s.InRange (zeroPageAddress (s.byteAt s.pc))) :
    resolveZeroPage s =
      .raised ((s.afterFetch 1).setFault (.addressOutOfRange (zeroPageAddress (s.byteAt s.pc)))) := by
  rw [resolveZeroPage, fetchByte_inRange h, Res.bind_ok]
  exact readByte_outOfRange (s := s.afterFetch 1) h'

theorem resolveZeroPage_operandOut (h : ¬ s.InRange s.pc) :
    resolveZeroPage s = .raised (s.setFault (.addressOutOfRange s.pc)) := by
  rw [resolveZeroPage, fetchByte_outOfRange h, Res.bind_raised]

theorem resolveZeroPageX_inRange (h : s.InRange s.pc) (h' : s.InRange (zeroPageXAddress (s.byteAt s.pc) s)) :
    resolveZeroPageX s =
      .ok (s.byteAt (zeroPageXAddress (s.byteAt s.pc) s)) (s.afterFetch 1).spend.spend := by
  rw [resolveZeroPageX, fetchByte_inRange h, Res.bind_ok]
  exact readByte_inRange (s := (s.afterFetch 1).spend) h'

theorem resolveZeroPageX_outOfRange (h : s.InRange s.pc) (h' : ¬ s.InRange (zeroPageXAddress (s.byteAt s.pc) s)) :
    resolveZeroPageX s =
      .raised ((s.afterFetch 1).spend.setFault (.addressOutOfRange (zeroPageXAddress (s.byteAt s.pc) s))) := by
  rw [resolveZeroPageX, fetchByte_inRange h, Res.bind_ok]
  exact readByte_outOfRange (s := (s.afterFetch 1).spend) h'

theorem resolveZeroPageX_operandOut (h : ¬ s.InRange s.pc) :
    resolveZeroPageX s = .raised (s.setFault (.addressOutOfRange s.pc)) := by
  rw [resolveZeroPageX, fetchByte_outOfRange h, Res.bind_raised]

/-- Settles O12: the effective address is the word with the number of the operand byte. -/
theorem resolverLaws : Obligations.ResolverLaws := by
  unfold Obligations.ResolverLaws
  intro s
  refine ⟨fun h => ⟨fetchByte_inRange h, fun ea hea => ?_⟩,
    fun h => ⟨fetchByte_outOfRange h, resolveZeroPage_operandOut h, fetchWord_outOfRange h⟩,
    fetchWord_highOutOfRange, fun h h' w hw => ?_⟩
  · obtain rfl := eq_zeroPageAddress_iff.mpr hea
    refine ⟨fun hin => (resolveZeroPage_inRange h hin).trans ?_, resolveZeroPage_outOfRange h⟩
    exact congrArg (Res.ok _) (State.eq_of_cyc_eq rfl (by simp; omega))
  · obtain rfl : w = concatBytes (s.byteAt (s.pc + 1#16)) (s.byteAt s.pc) :=
      BitVec.eq_of_toNat_eq (hw.trans (toNat_concatBytes _ _).symm)
    exact fetchWord_inRange h h'

/-- Settles O13: the effective address is the word with the sum modulo 256. -/
theorem indexedResolverWrapsInZeroPage : Obligations.IndexedResolverWrapsInZeroPage := by
  unfold Obligations.IndexedResolverWrapsInZeroPage
  intro s ea hea
  obtain rfl := eq_zeroPageXAddress_iff.mpr hea
  refine ⟨resolveZeroPageX_operandOut, fun h h' => (resolveZeroPageX_inRange h h').trans ?_,
    fun h h' => (resolveZeroPageX_outOfRange h h').trans ?_⟩
  · exact congrArg (Res.ok _) (State.eq_of_cyc_eq rfl (by simp; omega))
  · exact congrArg Res.raised (State.eq_of_cyc_eq rfl (by simp; omega))

end Sys2Proof.Machine

/-! # The meanings, once their bytes are fetched (R90 to R97) -/

namespace Sys2Proof.Machine

variable {s t : State}

/-- R93: a load writes `A`, `Z` and `N`. -/
theorem State.afterLoad_eq (s : State) (r : Byte) :
    s.afterLoad r = { s with a := r, flags := { s.flags with z := decide (r = 0#8), n := r.msb } } := by
  rw [State.afterLoad, updateZN_eq, negativeFlag_eq_msb]
  rfl

/-- Settles O15: the effective addresses are those of the resolvers, in numbers. -/
theorem loadsComplete : Obligations.LoadsComplete := by
  unfold Obligations.LoadsComplete
  intro s b _
  refine ⟨(exec_ldaImm b s).trans (congrArg _ (s.afterLoad_eq b)), fun ea hea hin => ?_, fun ea hea hin => ?_⟩
  · obtain rfl := eq_zeroPageAddress_iff.mpr hea
    rw [exec_ldaZp_inRange hin, State.afterLoad_eq]
    rfl
  · obtain rfl := eq_zeroPageXAddress_iff.mpr hea
    rw [exec_ldaZpX_inRange hin, State.afterLoad_eq]
    exact congrArg _ (State.eq_of_cyc_eq rfl (by simp; omega))

/-- Settles O16: both writes of the push are in range. -/
theorem subroutineJumpCompletes : Obligations.SubroutineJumpCompletes := by
  unfold Obligations.SubroutineJumpCompletes
  intro s target _ hwf h h'
  refine ⟨_, exec_jsrAbs_inRange target h h', ?_, s.afterPush_byteAt_sp s.pc hwf, s.afterPush_byteAt_low s.pc hwf,
    fun _ => s.afterPush_byteAt_other s.pc⟩
  ext1 <;> simp
  omega

/-- Every way a load can end: with a byte in `A`, or with the record of its effective address; but for that only `cyc`
differs. -/
theorem exec_load_cases {i : Instr} (hload : ∃ b : Byte, i = .ldaImm b ∨ i = .ldaZp b ∨ i = .ldaZpX b)
    (h : exec i s = .next t) :
    ∃ n : Int, (∃ r : Byte, t = (s.setCyc n).afterLoad r) ∨
      ∃ ea : Word, t = (s.setCyc n).setFault (.addressOutOfRange ea) ∧
        ((∃ b : Byte, i = .ldaZp b ∧ ea = zeroPageAddress b) ∨
          (∃ b : Byte, i = .ldaZpX b ∧ ea = zeroPageXAddress b s)) := by
  obtain ⟨b, rfl | rfl | rfl⟩ := hload
  · rw [exec_ldaImm] at h
    cases h
    exact ⟨s.cyc, .inl ⟨b, rfl⟩⟩
  · by_cases hin : s.InRange (zeroPageAddress b)
    · rw [exec_ldaZp_inRange hin] at h
      cases h
      exact ⟨s.cyc - 1, .inl ⟨_, rfl⟩⟩
    · rw [exec_ldaZp_outOfRange hin] at h
      cases h
      exact ⟨s.cyc, .inr ⟨_, rfl, .inl ⟨b, rfl, rfl⟩⟩⟩
  · by_cases hin : s.InRange (zeroPageXAddress b s)
    · rw [exec_ldaZpX_inRange hin] at h
      cases h
      exact ⟨s.cyc - 1 - 1, .inl ⟨_, rfl⟩⟩
    · rw [exec_ldaZpX_outOfRange hin] at h
      cases h
      exact ⟨s.cyc - 1, .inr ⟨_, rfl, .inr ⟨b, rfl, rfl⟩⟩⟩

/-- Settles O17: a load differs in `cyc`, and in `A` and the flags or in the record. -/
theorem loadsFrame : Obligations.LoadsFrame := by
  unfold Obligations.LoadsFrame
  intro i s t hload h
  obtain ⟨n, ⟨r, rfl⟩ | ⟨ea, rfl, hea⟩⟩ := exec_load_cases hload h
  · exact ⟨rfl, rfl, rfl, rfl, rfl, rfl, fun _ => rfl, .inl rfl⟩
  · refine ⟨rfl, rfl, rfl, rfl, rfl, rfl, fun _ => rfl, .inr ⟨rfl, rfl, ?_⟩⟩
    rcases hea with ⟨b, rfl, rfl⟩ | ⟨b, rfl, rfl⟩
    · exact .inl ⟨b, rfl, rfl⟩
    · exact .inr ⟨b, rfl, rfl⟩

/-- Settles O18, by which of the two writes of the push is out of range, if any. -/
theorem subroutineJumpFrame : Obligations.SubroutineJumpFrame := by
  unfold Obligations.SubroutineJumpFrame
  intro target s t h
  by_cases hsp : s.InRange s.sp
  · by_cases hlow : s.InRange (s.sp - 1#16)
    · rw [exec_jsrAbs_inRange target hsp hlow] at h
      cases h
      exact ⟨by simp, by simp, by simp, by simp, by simp, .inl (by simp), fun _ => s.afterPush_byteAt_other s.pc⟩
    · rw [exec_jsrAbs_lowOutOfRange target hsp hlow] at h
      cases h
      exact ⟨by simp, by simp, by simp, by simp, by simp, .inr (.inr (by simp)),
        fun _ hne _ => s.afterHighPush_byteAt_other s.pc hne⟩
  · rw [exec_jsrAbs_outOfRange target hsp] at h
    cases h
    exact ⟨rfl, rfl, rfl, rfl, rfl, .inr (.inl ⟨rfl, rfl, rfl⟩), fun _ _ _ => rfl⟩

end Sys2Proof.Machine

/-! # Whole steps (R83, R90 to R99, R105) -/

namespace Sys2Proof.Machine

variable {s t : State}

/-! ## The fetches of a step -/

/-- R105: the opcode fetch out of range. -/
theorem step_opcodeOut (h0 : s.fault = .none) (h : ¬ s.InRange s.pc) :
    step s = .next { s with fault := .addressOutOfRange s.pc } :=
  step_of_stepCase h0 (.opcodeOut h)

/-- R105: the fetch of the first operand byte out of range. -/
theorem step_operandOut {o : Operation} (h0 : s.fault = .none) (h : s.InRange s.pc)
    (hit : s.config.lookup (s.byteAt s.pc) = some o) (h1 : ¬ s.InRange (s.pc + 1#16)) :
    step s = .next
      { s with pc := s.pc + 1#16, cyc := s.cyc - 1, fault := .addressOutOfRange (s.pc + 1#16) } :=
  step_of_stepCase h0 (.operandOut o h hit h1)

/-- The byte at `PC` finds the entry whose opcode byte it is. -/
theorem State.lookup_of_opcode (hwf : s.config.wf = true) {o : Operation} (hop : s.byteAt s.pc = s.config.opcode o) :
    s.config.lookup (s.byteAt s.pc) = some o := by
  rw [hop, Config.lookup_opcode hwf]

/-! ## Loads -/

/-- Settles O19: the entry of `LDA #imm` stands first, so no legality of the parameters is needed. -/
theorem stepLoadImmediate : Obligations.StepLoadImmediate := by
  unfold Obligations.StepLoadImmediate
  intro s h0
  refine ⟨step_opcodeOut h0, fun h hop => ?_⟩
  have hit : s.config.lookup (s.byteAt s.pc) = some .ldaImm := by rw [Config.lookup_eq, if_pos hop]
  refine ⟨step_operandOut h0 h hit, fun h1 => (step_of_stepCase h0 (.ldaImm h hit h1)).trans ?_⟩
  rw [State.afterLoad_eq]
  rfl

/-- Settles O20, by which of the three accesses is out of range, if any. -/
theorem stepLoadZeroPage : Obligations.StepLoadZeroPage := by
  unfold Obligations.StepLoadZeroPage
  intro s ea h0 hwf
  refine ⟨step_opcodeOut h0, fun h hop => ?_⟩
  have hit : s.config.lookup (s.byteAt s.pc) = some .ldaZp := State.lookup_of_opcode hwf hop
  refine ⟨step_operandOut h0 h hit, fun h1 hea => ?_⟩
  obtain rfl := eq_zeroPageAddress_iff.mpr hea
  refine ⟨fun h2 => step_of_stepCase h0 (.ldaZpOut h hit h1 h2),
    fun h2 => (step_of_stepCase h0 (.ldaZp h hit h1 h2)).trans ?_⟩
  rw [State.afterLoad_eq]
  exact congrArg _ (State.eq_of_cyc_eq rfl (by simp; omega))

/-- Settles O21, by which of the three accesses is out of range, if any. -/
theorem stepLoadZeroPageIndexed : Obligations.StepLoadZeroPageIndexed := by
  unfold Obligations.StepLoadZeroPageIndexed
  intro s ea h0 hwf
  refine ⟨step_opcodeOut h0, fun h hop => ?_⟩
  have hit : s.config.lookup (s.byteAt s.pc) = some .ldaZpX := State.lookup_of_opcode hwf hop
  refine ⟨step_operandOut h0 h hit, fun h1 hea => ?_⟩
  obtain rfl := eq_zeroPageXAddress_iff.mpr hea
  refine ⟨fun h2 => (step_of_stepCase h0 (.ldaZpXOut h hit h1 h2)).trans ?_,
    fun h2 => (step_of_stepCase h0 (.ldaZpX h hit h1 h2)).trans ?_⟩
  · exact congrArg _ (State.eq_of_cyc_eq rfl (by simp; omega))
  · rw [State.afterLoad_eq]
    exact congrArg _ (State.eq_of_cyc_eq rfl (by simp; omega))

/-! ## Subroutine-jump -/

/-- Settles O22: the three fetches, the two writes, and the state after all of them. -/
theorem stepSubroutineJump : Obligations.StepSubroutineJump := by
  unfold Obligations.StepSubroutineJump
  intro s target h0 hwf hmem
  refine ⟨step_opcodeOut h0, fun h hop => ?_⟩
  have hit : s.config.lookup (s.byteAt s.pc) = some .jsrAbs := State.lookup_of_opcode hwf hop
  refine ⟨step_operandOut h0 h hit, fun h1 h2 => step_of_stepCase h0 (.highOperandOut h hit h1 h2),
    fun h1 h2 htarget => ?_⟩
  obtain rfl : target = concatBytes (s.byteAt (s.pc + 2#16)) (s.byteAt (s.pc + 1#16)) :=
    BitVec.eq_of_toNat_eq (htarget.trans (toNat_concatBytes _ _).symm)
  refine ⟨fun h3 => step_of_stepCase h0 (.pushOut h hit h1 h2 h3), fun h3 h4 => ?_, fun h3 h4 => ?_⟩
  · refine ⟨_, step_of_stepCase h0 (.lowPushOut h hit h1 h2 h3 h4), ?_,
      (s.afterFetch 3).afterHighPush_byteAt (s.pc + 3#16) hmem⟩
    ext1 <;> simp
    omega
  · refine ⟨_, step_of_stepCase h0 (.jsrAbs h hit h1 h2 h3 h4), ?_,
      (s.afterFetch 3).afterPush_byteAt_sp (s.pc + 3#16) hmem,
      (s.afterFetch 3).afterPush_byteAt_low (s.pc + 3#16) hmem,
      fun _ => (s.afterFetch 3).afterPush_byteAt_other (s.pc + 3#16)⟩
    ext1 <;> simp
    omega

/-- R95: a step on the jump's opcode that does not fault ends in the one state with all its accesses done. -/
theorem StepCase.eq_of_jsrAbs (hc : StepCase s t) (hf : t.fault = .none)
    (hit : s.config.lookup (s.byteAt s.pc) = some .jsrAbs) :
    t = (((s.afterFetch 3).afterPush (s.pc + 3#16)).setPc
      (concatBytes (s.byteAt (s.pc + 2#16)) (s.byteAt (s.pc + 1#16)))).spend := by
  cases hc with
  | jsrAbs => rfl
  | unknownNop _ miss => cases hit.symm.trans miss
  | ldaImm _ hit' => cases hit.symm.trans hit'
  | ldaZp _ hit' => cases hit.symm.trans hit'
  | ldaZpX _ hit' => cases hit.symm.trans hit'
  | _ => simp at hf

/-- Settles O23: the unfaulted end of a jump is one, and it has pushed `PC` plus 3. -/
theorem returnAddressIsRecoverable : Obligations.ReturnAddressIsRecoverable := by
  unfold Obligations.ReturnAddressIsRecoverable
  intro s t _ hinv hop hstep hf
  have hit : s.config.lookup (s.byteAt s.pc) = some .jsrAbs := State.lookup_of_opcode hinv.configWf hop
  obtain rfl := (stepCase_of_next hstep).2.eq_of_jsrAbs hf hit
  exact ⟨toNat_concatBytes _ _, by simp, (s.afterFetch 3).afterPush_word (s.pc + 3#16) hinv.memWf⟩

/-! ## Unknown opcodes -/

/-- Settles O24: the two ways a step can end under this policy where the byte has no entry. -/
theorem unknownOpcodeFaults : Obligations.UnknownOpcodeFaults := by
  unfold Obligations.UnknownOpcodeFaults
  intro s h0 hpolicy
  exact ⟨step_opcodeOut h0, fun h miss => step_of_stepCase h0 (.unknownFault h miss hpolicy)⟩

/-! ## The decoded instruction -/

/-- R50: a shorter run of bytes is the start of a longer one. -/
theorem State.bytesFrom_take (s : State) (addr : Word) (j k : Nat) :
    (s.bytesFrom addr (j + k)).take j = s.bytesFrom addr j := by
  induction j generalizing addr with
  | zero => simp [State.bytesFrom]
  | succ j ih => simp [State.bytesFrom, Nat.succ_add, ih]

/-- R51: the operand bytes of an instruction decoded from memory are the cells after its opcode byte. -/
theorem State.bytesFrom_operandBytes {addr : Word} {i : Instr} {rest : List Byte}
    (h : s.bytesFrom addr 2 = i.operandBytes ++ rest) :
    s.bytesFrom addr i.operation.mode.operandBytes = i.operandBytes := by
  obtain ⟨k, hk⟩ := Nat.exists_eq_add_of_le i.operation.mode.operandBytes_le
  rw [← s.bytesFrom_take addr _ k, ← hk, h, ← i.operandBytes_length, List.take_left]

/-- R52, R54: a step fetches the bytes of the instruction that stands at `PC` and then runs it. -/
theorem step_eq_exec {i : Instr} {rest : List Byte} (h0 : s.fault = .none)
    (hdecode : decode s.config (s.bytesFrom s.pc 3) = .instr i rest)
    (hin : ∀ k < i.operation.length, s.InRange (s.pc + BitVec.ofNat 16 k)) :
    step s = exec i (s.afterFetch i.operation.length) := by
  obtain ⟨hit, hbytes⟩ := decode_eq_instr_iff.mp hdecode
  have h : s.InRange s.pc := by simpa using hin 0 (by simp [Operation.length])
  have hrest : ∀ k < i.operation.mode.operandBytes, s.InRange (s.pc + 1#16 + BitVec.ofNat 16 k) := fun k hk => by
    have hnext := hin (1 + k) (by simp [Operation.length, hk])
    rwa [BitVec.ofNat_add, ← BitVec.add_assoc] at hnext
  have hoperand : (s.afterFetch 1).bytesFrom (s.pc + 1#16) i.operation.mode.operandBytes = i.operandBytes :=
    State.bytesFrom_operandBytes hbytes
  have hinstr : decodeOperand (s.byteAt s.pc) i.operation i.operandBytes = .instr i [] :=
    decodeOperand_eq_instr_iff.mpr ⟨rfl, (List.append_nil _).symm⟩
  rw [step_of_unfaulted h0, fetchInstr_known h hit hrest, hoperand, hinstr]
  rfl

/-- Settles O26: a step fetches what the decoder reads. -/
theorem stepRunsTheDecodedInstruction : Obligations.StepRunsTheDecodedInstruction := by
  unfold Obligations.StepRunsTheDecodedInstruction
  intro s i rest h0 hdecode hin
  exact step_eq_exec h0 hdecode hin

/-! ## The pseudocode of R83 -/

/-- R83: what the pseudocode does after the opcode fetch, by the table entry. -/
def operationRule : Operation → State → Res Unit
  | .ldaImm, t => (resolveImmediate t).bind loadAccumulator
  | .ldaZp, t => (resolveZeroPage t).bind loadAccumulator
  | .ldaZpX, t => (resolveZeroPageX t).bind loadAccumulator
  | .jsrAbs, t => (resolveAbsolute t).bind jumpSubroutine

/-- R82, R83: the chain of tests of the pseudocode is the look-up in the dispatch table. -/
theorem stepRule_eq (s : State) :
    stepRule s = (fetchByte s).bind fun op t =>
      (s.config.lookup op).elim (unknownOpcode op s.pc t) fun o => operationRule o t := by
  unfold stepRule
  congr 1
  funext op t
  rw [Config.lookup_eq]
  split_ifs <;> rfl

/-- R83: the pseudocode on an opcode with an entry. -/
theorem stepRule_of_hit {o : Operation} (h : s.InRange s.pc) (hit : s.config.lookup (s.byteAt s.pc) = some o) :
    stepRule s = operationRule o (s.afterFetch 1) := by
  rw [stepRule_eq, fetchByte_inRange h, Res.bind_ok, hit, Option.elim_some]

/-- R83: the pseudocode on an opcode without an entry. -/
theorem stepRule_of_miss (h : s.InRange s.pc) (miss : s.config.lookup (s.byteAt s.pc) = none) :
    stepRule s = unknownOpcode (s.byteAt s.pc) s.pc (s.afterFetch 1) := by
  rw [stepRule_eq, fetchByte_inRange h, Res.bind_ok, miss, Option.elim_none]

/-- R105: the pseudocode where the first operand byte is out of range. -/
theorem operationRule_operandOut (o : Operation) (h1 : ¬ s.InRange (s.pc + 1#16)) :
    operationRule o (s.afterFetch 1) =
      .raised ((s.afterFetch 1).setFault (.addressOutOfRange (s.pc + 1#16))) := by
  have hout : ¬ (s.afterFetch 1).InRange (s.afterFetch 1).pc := h1
  cases o with
  | ldaImm => rw [operationRule, resolveImmediate, fetchByte_outOfRange hout]; rfl
  | ldaZp => rw [operationRule, resolveZeroPage_operandOut hout]; rfl
  | ldaZpX => rw [operationRule, resolveZeroPageX_operandOut hout]; rfl
  | jsrAbs => rw [operationRule, resolveAbsolute, fetchWord_outOfRange hout]; rfl

/-- Settles O27: both fetch the same bytes in the same order, and what each does with the operand is the same. -/
theorem stepRefinesTheRulesPseudocode : Obligations.StepRefinesTheRulesPseudocode := by
  unfold Obligations.StepRefinesTheRulesPseudocode
  intro s h0
  rw [step_of_unfaulted h0]
  by_cases h : s.InRange s.pc
  swap
  · rw [fetchInstr_opcodeOut h, stepRule_eq, fetchByte_outOfRange h]
    rfl
  cases hit : s.config.lookup (s.byteAt s.pc) with
  | none => rw [fetchInstr_unknown h hit, stepRule_of_miss h hit]
  | some o =>
    rw [stepRule_of_hit h hit]
    by_cases h1 : s.InRange (s.pc + 1#16)
    swap
    · rw [fetchInstr_operandOut h hit h1, operationRule_operandOut o h1]
      rfl
    have hfetch := fetchByte_afterFetch_inRange h1
    cases o with
    | ldaImm =>
      rw [fetchInstr_oneByte (f := .ldaImm) rfl (fun _ _ => rfl) h hit h1, operationRule, resolveImmediate, hfetch]
      rfl
    | ldaZp =>
      rw [fetchInstr_oneByte (f := .ldaZp) rfl (fun _ _ => rfl) h hit h1, operationRule, resolveZeroPage, hfetch]
      rfl
    | ldaZpX =>
      rw [fetchInstr_oneByte (f := .ldaZpX) rfl (fun _ _ => rfl) h hit h1, operationRule, resolveZeroPageX, hfetch]
      rfl
    | jsrAbs =>
      rw [operationRule, resolveAbsolute, fetchWord, hfetch, Res.bind_ok]
      by_cases h2 : s.InRange (s.pc + 2#16)
      · rw [fetchInstr_jsrAbs h hit h1 h2, fetchByte_afterFetch_inRange h2]
        rfl
      · rw [fetchInstr_highOperandOut h hit h1 h2, fetchByte_afterFetch_outOfRange h2]
        rfl

end Sys2Proof.Machine

/-! # What every step keeps, moves, costs and reads (R80, R83, R135, R136) -/

namespace Sys2Proof.Machine

variable {s t u : State}

/-! ## The invariant -/

/-- The first write of a push to a cell that exists keeps the invariant. -/
theorem State.Inv.afterHighPush (h : s.Inv) (hsp : s.InRange s.sp) (w : Word) : (s.afterHighPush w).Inv :=
  h.poke hsp rfl rfl

/-- A push to two cells that exist keeps the invariant. -/
theorem State.Inv.afterPush (h : s.Inv) (hsp : s.InRange s.sp) (hlow : s.InRange (s.sp - 1#16)) (w : Word) :
    (s.afterPush w).Inv :=
  (h.afterHighPush hsp w).poke hlow rfl rfl

/-- Only the jump writes memory, and it checks each cell before it writes. -/
theorem StepCase.inv (hc : StepCase s t) (h : s.Inv) : t.Inv := by
  cases hc with
  | lowPushOut _ _ _ _ hsp =>
    have hfetch : (s.afterFetch 3).Inv := h.of_same rfl rfl
    exact (hfetch.afterHighPush hsp (s.pc + 3#16)).of_same (by simp) (by simp)
  | jsrAbs _ _ _ _ hsp hlow =>
    have hfetch : (s.afterFetch 3).Inv := h.of_same rfl rfl
    exact (hfetch.afterPush hsp hlow (s.pc + 3#16)).of_same (by simp) (by simp)
  | _ => exact h.of_same rfl rfl

/-- Settles O28: every listed way to end keeps the invariant. -/
theorem stepKeepsInvariant : Obligations.StepKeepsInvariant := by
  unfold Obligations.StepKeepsInvariant
  intro s t h hstep
  exact (stepCase_of_next hstep).2.inv h

/-- The memory after reset is empty, so only the parameters matter. -/
theorem State.resetWith_inv {c : Config} (h : c.wf = true) : (State.resetWith c).Inv :=
  ⟨h, (State.resetWith_mem_wf c).1, (State.resetWith_mem_wf c).2⟩

/-- Settles O29: the default parameters are legal. -/
theorem resetMeetsInvariant : Obligations.ResetMeetsInvariant := by
  unfold Obligations.ResetMeetsInvariant
  exact ⟨State.resetWith_inv (by decide), fun _ => State.resetWith_inv⟩

/-! ## Where a step is defined -/

/-- The step of an unfaulted core answers a next state. -/
theorem exists_next_of_unfaulted (h : s.fault = .none) : ∃ t, step s = .next t := by
  obtain ⟨t, hc⟩ := exists_stepCase s
  exact ⟨t, step_of_stepCase h hc⟩

/-- R80: faulted is the condition of a core whose record is set. -/
theorem State.condition_of_faulted (h : s.fault ≠ .none) (executing : Bool) : s.condition executing = .faulted := by
  unfold State.condition
  split
  · contradiction
  · rfl
  · rfl

/-- R80: an unfaulted core is running inside Execute and idle outside. -/
theorem State.condition_of_unfaulted (h : s.fault = .none) (executing : Bool) :
    s.condition executing = if executing then .running else .idle := by
  simp [State.condition, h]

/-- Settles O30: a faulted core answers the fault, any other a next state. -/
theorem stepIsDefinedExactlyWhenUnfaulted : Obligations.StepIsDefinedExactlyWhenUnfaulted := by
  unfold Obligations.StepIsDefinedExactlyWhenUnfaulted
  intro s
  by_cases h : s.fault = .none
  · obtain ⟨t, hstep⟩ := exists_next_of_unfaulted h
    simp [h, hstep, State.condition_of_unfaulted h]
  · simp [h, step_of_faulted h, State.condition_of_faulted h]

/-! ## What no step changes -/

/-- R12, R13, R22: no step writes `X`, `Y` or the parameters. -/
theorem StepCase.keeps_x_y_config (hc : StepCase s t) : t.x = s.x ∧ t.y = s.y ∧ t.config = s.config := by
  cases hc <;> simp

/-- R17: no step writes a flag but `Z` and `N`. -/
theorem StepCase.keeps_inert_flags (hc : StepCase s t) :
    t.flags = { s.flags with z := t.flags.z, n := t.flags.n } := by
  cases hc <;> simp

/-- Settles O31, from the frame of each way to end. -/
theorem noStepWritesIndexRegistersOrInertFlags : Obligations.NoStepWritesIndexRegistersOrInertFlags := by
  unfold Obligations.NoStepWritesIndexRegistersOrInertFlags
  intro s t hstep
  obtain ⟨-, hc⟩ := stepCase_of_next hstep
  obtain ⟨hx, hy, hconfig⟩ := hc.keeps_x_y_config
  have hflags := hc.keeps_inert_flags
  exact ⟨hx, hy, by rw [hflags], by rw [hflags], by rw [hflags], by rw [hflags], by rw [hflags], hconfig⟩

/-! ## The stack pointer and memory -/

/-- R16, R37: a step on any other opcode than the jump's keeps `SP` and memory. -/
theorem StepCase.keeps_sp_mem (hc : StepCase s t) (hother : s.config.lookup (s.byteAt s.pc) ≠ some .jsrAbs) :
    t.sp = s.sp ∧ t.mem = s.mem := by
  cases hc with
  | lowPushOut _ hit => exact absurd hit hother
  | jsrAbs _ hit => exact absurd hit hother
  | _ => exact ⟨rfl, rfl⟩

/-- R69: how far a step moves `SP`. -/
theorem StepCase.sp_cases (hc : StepCase s t) :
    t.sp = s.sp ∨ t.sp = s.sp - 2#16 ∨ t.sp = s.sp - 1#16 ∧ t.fault = .addressOutOfRange (s.sp - 1#16) := by
  cases hc with
  | lowPushOut => exact .inr (.inr ⟨by simp, by simp⟩)
  | jsrAbs => exact .inr (.inl (by simp))
  | _ => exact .inl rfl

/-- R37: a step keeps every byte but the two a push stores. -/
theorem StepCase.byteAt_other (hc : StepCase s t) {addr : Word} (h : addr ≠ s.sp) (h' : addr ≠ s.sp - 1#16) :
    t.byteAt addr = s.byteAt addr := by
  cases hc with
  | lowPushOut => exact (s.afterFetch 3).afterHighPush_byteAt_other (s.pc + 3#16) h
  | jsrAbs => exact (s.afterFetch 3).afterPush_byteAt_other (s.pc + 3#16) h h'
  | _ => rfl

/-- Settles O35: the way a step ends says which cells and how far `SP` moved. -/
theorem onlySubroutineJumpMovesStackOrMemory : Obligations.OnlySubroutineJumpMovesStackOrMemory := by
  unfold Obligations.OnlySubroutineJumpMovesStackOrMemory
  intro s t hstep
  obtain ⟨-, hc⟩ := stepCase_of_next hstep
  refine ⟨fun hmoved => ?_, hc.sp_cases, fun addr => hc.byteAt_other⟩
  by_cases hit : s.config.lookup (s.byteAt s.pc) = some .jsrAbs
  · exact Config.opcode_of_lookup hit
  · obtain ⟨hsp, hmem⟩ := hc.keeps_sp_mem hit
    rcases hmoved with hne | ⟨addr, hne⟩
    · exact absurd hsp hne
    · exact absurd (by rw [State.byteAt, hmem, State.byteAt]) hne

/-! ## Cycles and the columns of the dispatch table -/

/-- R99, R135: what a step on the opcode byte `op` costs if it does not fault. -/
def stepCycles (c : Config) (op : Byte) : Nat := (c.lookup op).elim 1 Operation.cycles

/-- R135: the costs by the tests of R83. -/
theorem stepCycles_eq (c : Config) (op : Byte) :
    stepCycles c op =
      if op = c.opcLdaImm then 2 else if op = c.opcLdaZp then 3 else if op = c.opcLdaZpX then 4
      else if op = c.opcJsr then 6 else 1 := by
  rw [stepCycles, c.lookup_eq]
  split_ifs <;> rfl

/-- R135: a step that does not fault costs what the table says. -/
theorem StepCase.cyc_of_unfaulted (hc : StepCase s t) (hf : t.fault = .none) :
    t.cyc = s.cyc - stepCycles s.config (s.byteAt s.pc) := by
  cases hc with
  | unknownNop _ miss => simp [stepCycles, miss]
  | ldaImm _ hit => simp [stepCycles, hit, Operation.cycles]
  | ldaZp _ hit => simp [stepCycles, hit, Operation.cycles]; omega
  | ldaZpX _ hit => simp [stepCycles, hit, Operation.cycles]; omega
  | jsrAbs _ hit => simp [stepCycles, hit, Operation.cycles]; omega
  | _ => simp at hf

/-- Settles O36: the table's costs by the tests of R83. -/
theorem cyclesOfAnUnfaultedStep : Obligations.CyclesOfAnUnfaultedStep := by
  unfold Obligations.CyclesOfAnUnfaultedStep
  intro s t hstep hf
  rw [(stepCase_of_next hstep).2.cyc_of_unfaulted hf, stepCycles_eq]
  push_cast
  rfl

/-- R65: a step on an opcode with an entry other than the jump's leaves `PC` past the instruction if it does not fault. -/
theorem StepCase.pc_of_unfaulted {o : Operation} (hc : StepCase s t) (hf : t.fault = .none)
    (hit : s.config.lookup (s.byteAt s.pc) = some o) (hmode : o.mode ≠ .absolute) :
    t.pc = s.pc + BitVec.ofNat 16 o.length := by
  cases hc with
  | unknownNop _ miss => cases hit.symm.trans miss
  | ldaImm _ hit' => cases hit.symm.trans hit'; rfl
  | ldaZp _ hit' => cases hit.symm.trans hit'; rfl
  | ldaZpX _ hit' => cases hit.symm.trans hit'; rfl
  | jsrAbs _ hit' => cases hit.symm.trans hit'; exact absurd rfl hmode
  | _ => simp at hf

/-- Settles O37: the columns one by one, the flags by the laws of R77. -/
theorem dispatchTableDescribesTheStep : Obligations.DispatchTableDescribesTheStep := by
  unfold Obligations.DispatchTableDescribesTheStep
  intro s t o hstep hf hit
  obtain ⟨-, hc⟩ := stepCase_of_next hstep
  refine ⟨?_, fun hdef => ?_, fun hdef => ?_, hc.pc_of_unfaulted hf hit⟩
  · rw [hc.cyc_of_unfaulted hf, stepCycles, hit]
    rfl
  · rw [hc.flags_of_definesResult hf (by simp [hit, hdef]), negativeFlag_eq_msb]
    rfl
  · exact hc.keeps_a_and_flags (by simp [hit, hdef])

/-! ## The fault record -/

/-- R101, R102: why a step ends with a fault. -/
theorem StepCase.fault_cases (hc : StepCase s t) (h0 : s.fault = .none) :
    t.fault = .none ∨
    (∃ addr : Word, t.fault = .addressOutOfRange addr ∧ s.config.memCapacity ≤ addr.toNat) ∨
    (t.fault = .unknownOpcode (s.byteAt s.pc) s.pc ∧ s.config.lookup (s.byteAt s.pc) = none ∧
      s.config.unknownOpcodePolicy = .fault) := by
  cases hc with
  | opcodeOut h => exact .inr (.inl ⟨_, rfl, not_lt.mp h⟩)
  | unknownFault _ miss policy => exact .inr (.inr ⟨rfl, miss, policy⟩)
  | operandOut _ _ _ h => exact .inr (.inl ⟨_, rfl, not_lt.mp h⟩)
  | highOperandOut _ _ _ h => exact .inr (.inl ⟨_, rfl, not_lt.mp h⟩)
  | ldaZpOut _ _ _ h => exact .inr (.inl ⟨_, rfl, not_lt.mp h⟩)
  | ldaZpXOut _ _ _ h => exact .inr (.inl ⟨_, rfl, not_lt.mp h⟩)
  | pushOut _ _ _ _ h => exact .inr (.inl ⟨_, rfl, not_lt.mp h⟩)
  | lowPushOut _ _ _ _ _ h => exact .inr (.inl ⟨_, rfl, not_lt.mp h⟩)
  | jsrAbs => exact .inl (by simpa using h0)
  | _ => exact .inl h0

/-- Settles O38: each way to end names its failing access or its unknown byte. -/
theorem faultRecordIsTrue : Obligations.FaultRecordIsTrue := by
  unfold Obligations.FaultRecordIsTrue
  intro s t hstep
  obtain ⟨h0, hc⟩ := stepCase_of_next hstep
  exact hc.fault_cases h0

/-- Settles O39: no word is at or beyond 65536. -/
theorem fullCapacityNeverFaultsOnAnAddress : Obligations.FullCapacityNeverFaultsOnAnAddress := by
  unfold Obligations.FullCapacityNeverFaultsOnAnAddress
  intro s t hcap hstep
  obtain ⟨h0, hc⟩ := stepCase_of_next hstep
  rcases hc.fault_cases h0 with hf | ⟨addr, -, hout⟩ | ⟨hf, -, hpolicy⟩
  · simp [hf]
  · exact absurd addr.isLt (by omega)
  · simp [hf, hpolicy]

/-! ## What no step reads -/

/-- The state with other values of what no instruction reads: `A`, `Y` and the flags. -/
def State.withUnread (s : State) (a y : Byte) (f : Flags) : State := { s with a := a, y := y, flags := f }

/-- R11, R13, R17: a step that starts with other values of `A`, `Y` and the flags ends in the same way; the three loads
write `A`, `Z` and `N`, and every other way to end keeps them. -/
theorem StepCase.withUnread (hc : StepCase s t) (a y : Byte) (f : Flags) :
    (StepCase (s.withUnread a y f) (t.withUnread a y f) ∧ t.a = s.a ∧ t.flags = s.flags) ∨
    StepCase (s.withUnread a y f) (t.withUnread t.a y { f with z := t.flags.z, n := t.flags.n }) := by
  cases hc with
  | opcodeOut h => exact .inl ⟨.opcodeOut h, rfl, rfl⟩
  | unknownFault h miss policy => exact .inl ⟨.unknownFault h miss policy, rfl, rfl⟩
  | unknownNop h miss policy => exact .inl ⟨.unknownNop h miss policy, rfl, rfl⟩
  | operandOut o h hit h1 => exact .inl ⟨.operandOut o h hit h1, rfl, rfl⟩
  | highOperandOut h hit h1 h2 => exact .inl ⟨.highOperandOut h hit h1 h2, rfl, rfl⟩
  | ldaImm h hit h1 => exact .inr (.ldaImm h hit h1)
  | ldaZpOut h hit h1 h2 => exact .inl ⟨.ldaZpOut h hit h1 h2, rfl, rfl⟩
  | ldaZp h hit h1 h2 => exact .inr (.ldaZp h hit h1 h2)
  | ldaZpXOut h hit h1 h2 => exact .inl ⟨.ldaZpXOut h hit h1 h2, rfl, rfl⟩
  | ldaZpX h hit h1 h2 => exact .inr (.ldaZpX h hit h1 h2)
  | pushOut h hit h1 h2 h3 => exact .inl ⟨.pushOut h hit h1 h2 h3, rfl, rfl⟩
  | lowPushOut h hit h1 h2 h3 h4 => exact .inl ⟨.lowPushOut h hit h1 h2 h3 h4, rfl, rfl⟩
  | jsrAbs h hit h1 h2 h3 h4 => exact .inl ⟨.jsrAbs h hit h1 h2 h3 h4, by simp, by simp⟩

/-- Settles O32: the step from the changed state ends in the way listed for it. -/
theorem noStepReadsAccumulatorYOrFlags : Obligations.NoStepReadsAccumulatorYOrFlags := by
  unfold Obligations.NoStepReadsAccumulatorYOrFlags
  intro s t a y f hstep
  obtain ⟨h0, hc⟩ := stepCase_of_next hstep
  have h0' : (s.withUnread a y f).fault = .none := h0
  rcases hc.withUnread a y f with ⟨hc', ha, hflags⟩ | hc'
  · exact .inl ⟨step_of_stepCase h0' hc', ha, hflags⟩
  · exact .inr (step_of_stepCase h0' hc')

/-- A way to end in `u` is one to end in `t` with another cycle count, if the two differ in the count only. -/
theorem StepCase.of_setCyc_eq {n : Int} (hc : StepCase s u) (hcyc : u.cyc = n) (h : u.setCyc n = t.setCyc n) :
    StepCase s (t.setCyc n) := by
  subst hcyc
  rwa [← h]

/-- R136: a step that starts with another cycle count ends in the same way, and deducts the same. -/
theorem StepCase.setCyc (hc : StepCase s t) (n : Int) :
    StepCase (s.setCyc n) (t.setCyc (n - (s.cyc - t.cyc))) := by
  cases hc with
  | opcodeOut h => exact .of_setCyc_eq (.opcodeOut h) (by simp) rfl
  | unknownFault h miss policy => exact .of_setCyc_eq (.unknownFault h miss policy) (by simp) rfl
  | unknownNop h miss policy => exact .of_setCyc_eq (.unknownNop h miss policy) (by simp) rfl
  | operandOut o h hit h1 => exact .of_setCyc_eq (.operandOut o h hit h1) (by simp) rfl
  | highOperandOut h hit h1 h2 => exact .of_setCyc_eq (.highOperandOut h hit h1 h2) (by simp) rfl
  | ldaImm h hit h1 => exact .of_setCyc_eq (.ldaImm h hit h1) (by simp) rfl
  | ldaZpOut h hit h1 h2 => exact .of_setCyc_eq (.ldaZpOut h hit h1 h2) (by simp) rfl
  | ldaZp h hit h1 h2 => exact .of_setCyc_eq (.ldaZp h hit h1 h2) (by simp; omega) rfl
  | ldaZpXOut h hit h1 h2 => exact .of_setCyc_eq (.ldaZpXOut h hit h1 h2) (by simp; omega) rfl
  | ldaZpX h hit h1 h2 => exact .of_setCyc_eq (.ldaZpX h hit h1 h2) (by simp; omega) rfl
  | pushOut h hit h1 h2 h3 => exact .of_setCyc_eq (.pushOut h hit h1 h2 h3) (by simp) rfl
  | lowPushOut h hit h1 h2 h3 h4 => exact .of_setCyc_eq (.lowPushOut h hit h1 h2 h3 h4) (by simp; omega) rfl
  | jsrAbs h hit h1 h2 h3 h4 => exact .of_setCyc_eq (.jsrAbs h hit h1 h2 h3 h4) (by simp; omega) (by ext1 <;> simp)

/-- Settles O33: the same way to end, with the same cycles deducted. -/
theorem noStepReadsTheCycleCount : Obligations.NoStepReadsTheCycleCount := by
  unfold Obligations.NoStepReadsTheCycleCount
  intro s t n hstep
  obtain ⟨h0, hc⟩ := stepCase_of_next hstep
  have h0' : (s.setCyc n).fault = .none := h0
  exact step_of_stepCase h0' (hc.setCyc n)

/-- R37, R72: over another memory that agrees at the two bytes of `LDA zp,X` and at its effective address, the step ends in
the same way. -/
theorem StepCase.setMem_of_ldaZpX {m : Memory} (hc : StepCase s t)
    (hit : s.config.lookup (s.byteAt s.pc) = some .ldaZpX)
    (hop : m.peek s.pc.toNat = s.byteAt s.pc) (hzp : m.peek (s.pc + 1#16).toNat = s.byteAt (s.pc + 1#16))
    (hea : m.peek (zeroPageXAddress (s.byteAt (s.pc + 1#16)) s).toNat =
      s.byteAt (zeroPageXAddress (s.byteAt (s.pc + 1#16)) s)) :
    StepCase (s.setMem m) (t.setMem m) := by
  have hop' : (s.setMem m).byteAt (s.setMem m).pc = s.byteAt s.pc := hop
  have hzp' : (s.setMem m).byteAt ((s.setMem m).pc + 1#16) = s.byteAt (s.pc + 1#16) := hzp
  have hit' : (s.setMem m).config.lookup ((s.setMem m).byteAt (s.setMem m).pc) = some .ldaZpX := by rwa [hop']
  cases hc with
  | opcodeOut h => exact .opcodeOut h
  | operandOut o h _ h1 => exact .operandOut .ldaZpX h hit' h1
  | ldaZpXOut h _ h1 h2 =>
    have hc' := StepCase.ldaZpXOut (s := s.setMem m) h hit' h1 (by rw [hzp']; exact h2)
    rwa [hzp'] at hc'
  | ldaZpX h _ h1 h2 =>
    have hea' : (s.setMem m).byteAt (zeroPageXAddress (s.byteAt (s.pc + 1#16)) (s.setMem m)) = _ := hea
    have hc' := StepCase.ldaZpX (s := s.setMem m) h hit' h1 (by rw [hzp']; exact h2)
    rwa [hzp', hea'] at hc'
  | unknownFault _ miss => cases hit.symm.trans miss
  | unknownNop _ miss => cases hit.symm.trans miss
  | highOperandOut _ hit'' => cases hit.symm.trans hit''
  | ldaImm _ hit'' => cases hit.symm.trans hit''
  | ldaZpOut _ hit'' => cases hit.symm.trans hit''
  | ldaZp _ hit'' => cases hit.symm.trans hit''
  | pushOut _ hit'' => cases hit.symm.trans hit''
  | lowPushOut _ hit'' => cases hit.symm.trans hit''
  | jsrAbs _ hit'' => cases hit.symm.trans hit''

/-- Settles O34: the three cells that must agree are those the way to end names. -/
theorem indexedLoadReadsOnlyItsCells : Obligations.IndexedLoadReadsOnlyItsCells := by
  unfold Obligations.IndexedLoadReadsOnlyItsCells
  intro s t m hwf hop hagree hstep
  obtain ⟨h0, hc⟩ := stepCase_of_next hstep
  have hit : s.config.lookup (s.byteAt s.pc) = some .ldaZpX := State.lookup_of_opcode hwf hop
  have h0' : (s.setMem m).fault = .none := h0
  exact step_of_stepCase h0' (hc.setMem_of_ldaZpX hit (hagree _ (.inl rfl)) (hagree _ (.inr (.inl rfl)))
    (hagree _ (.inr (.inr (eq_zeroPageXAddress_iff.mp rfl)))))

end Sys2Proof.Machine

/-! # Execute (R81, R84 to R88) -/

namespace Sys2Proof.Machine

variable {s t u : State} {fuel budget : Nat}

/-! ## The loop -/

/-- Execute on an unfaulted core is the loop with the budget loaded. -/
theorem execute_of_unfaulted (h : s.fault = .none) (budget : Nat) :
    execute budget s = executeLoop budget (s.setCyc budget) := if_neg (by simp [h])

/-- Execute on a faulted core changes nothing. -/
theorem execute_of_faulted (h : s.fault ≠ .none) (budget : Nat) : execute budget s = .next s := if_pos h

/-- R87: a run that has ended makes no further step. -/
theorem executeLoop_of_runEnded (h : s.RunEnded) : executeLoop fuel s = .next s :=
  executeLoop_ended h.symm

/-- R81: a run that has not ended goes on with one step. -/
theorem executeLoop_succ (h : ¬ s.RunEnded) (hs : step s = .next t) : executeLoop (fuel + 1) s = executeLoop fuel t :=
  executeLoop_step (mt Or.symm h) hs

/-- R87: a run that has not ended can make a step, which ends the run or leaves less to spend. -/
theorem exists_next_of_not_runEnded (h : ¬ s.RunEnded) :
    ∃ t, step s = .next t ∧ (t.fault = .none → t.cyc < s.cyc) :=
  exists_step_of_running (mt Or.symm h)

/-- A run that has not ended is of an unfaulted core with cycles left. -/
theorem State.not_runEnded_iff : ¬ s.RunEnded ↔ s.fault = .none ∧ 0 < s.cyc := by
  simp [State.RunEnded]

/-- What a step of a run that has not ended keeps, the loop keeps. -/
theorem executeLoop_keeps {P : State → Prop}
    (hkeep : ∀ s t : State, ¬ s.RunEnded → P s → step s = .next t → P t)
    (hs : P s) (h : executeLoop fuel s = .next t) : P t := by
  induction fuel generalizing s with
  | zero => cases h; exact hs
  | succ n ih =>
    by_cases hend : s.RunEnded
    · rw [executeLoop_of_runEnded hend] at h
      cases h
      exact hs
    · obtain ⟨u, hstep, -⟩ := exists_next_of_not_runEnded hend
      rw [executeLoop_succ hend hstep] at h
      exact ih (hkeep s u hend hs hstep) h

/-- What loading a budget and each step of a run keep, Execute keeps. -/
theorem execute_keeps {P : State → Prop}
    (hkeep : ∀ s t : State, ¬ s.RunEnded → P s → step s = .next t → P t)
    (hfaulted : s.fault ≠ .none → P s) (hload : P (s.setCyc budget)) (h : execute budget s = .next t) : P t := by
  by_cases h0 : s.fault = .none
  · rw [execute_of_unfaulted h0] at h
    exact executeLoop_keeps hkeep hload h
  · rw [execute_of_faulted h0] at h
    cases h
    exact hfaulted h0

/-- R87: with as much fuel as cycles the loop ends the run in at most that many steps of the machine. -/
theorem executeLoop_terminates (h : s.cyc ≤ fuel) :
    ∃ (k : Nat) (t : State), k ≤ fuel ∧ core.run k s = .next t ∧ executeLoop fuel s = .next t ∧ t.RunEnded := by
  induction fuel generalizing s with
  | zero => exact ⟨0, s, le_rfl, rfl, rfl, .inr (by simpa using h)⟩
  | succ n ih =>
    by_cases hend : s.RunEnded
    · exact ⟨0, s, Nat.zero_le _, rfl, executeLoop_of_runEnded hend, hend⟩
    · obtain ⟨u, hstep, hlt⟩ := exists_next_of_not_runEnded hend
      rw [executeLoop_succ hend hstep]
      by_cases hu : u.fault = .none
      · have hless := hlt hu
        obtain ⟨k, t, hk, hrun, hloop, hended⟩ := ih (s := u) (by omega)
        exact ⟨k + 1, t, by omega, (core_run_succ hstep).trans hrun, hloop, hended⟩
      · exact ⟨1, u, by omega, core_run_succ hstep, executeLoop_of_runEnded (.inl hu), .inl hu⟩

/-- R87, R100: a run that has ended did so in one of the three kinds, a fatal one exactly at a fault. -/
theorem State.RunEnded.endOfRun (h : s.RunEnded) :
    ∃ kind, s.endOfRun = some kind ∧ (kind.fatal = true ↔ s.fault ≠ .none) := by
  cases hf : s.fault with
  | none =>
    have hspent : s.BudgetExhausted := h.resolve_left (by simp [hf])
    exact ⟨.cycleBudgetExhausted, by simp [State.endOfRun, hf, FaultRecord.kind, hspent], by simp [ErrorKind.fatal]⟩
  | addressOutOfRange =>
    exact ⟨.addressOutOfRange, by simp [State.endOfRun, hf, FaultRecord.kind], by simp [ErrorKind.fatal]⟩
  | unknownOpcode =>
    exact ⟨.unknownOpcode, by simp [State.endOfRun, hf, FaultRecord.kind], by simp [ErrorKind.fatal]⟩

/-! ## The statements about a call -/

/-- Settles O42: loading the budget leaves as many cycles as fuel. -/
theorem executeTerminates : Obligations.ExecuteTerminates := by
  unfold Obligations.ExecuteTerminates
  intro s budget h0
  obtain ⟨k, t, hk, hrun, hloop, hended⟩ := executeLoop_terminates (s := s.setCyc budget) (fuel := budget) le_rfl
  exact ⟨k, t, hk, hrun, (execute_of_unfaulted h0 budget).trans hloop, hended, hended.endOfRun⟩

/-- R81: from an unfaulted core with cycles left, the loop and a fresh Execute of those cycles are the same. -/
theorem execute_toNat_cyc (h : ¬ s.RunEnded) : execute s.cyc.toNat s = executeLoop s.cyc.toNat s := by
  obtain ⟨h0, hpos⟩ := State.not_runEnded_iff.mp h
  rw [execute_of_unfaulted h0, Int.toNat_of_nonneg hpos.le]
  rfl

/-- Settles O40: one step of the loop, and more fuel than cycles changes nothing. -/
theorem executeUnrolls : Obligations.ExecuteUnrolls := by
  unfold Obligations.ExecuteUnrolls
  intro s t budget h0 hpos hstep
  obtain ⟨n, rfl⟩ : ∃ n, budget = n + 1 := ⟨budget - 1, by omega⟩
  have hgo : ¬ (s.setCyc (n + 1 : Nat)).RunEnded := State.not_runEnded_iff.mpr ⟨h0, by simp⟩
  have hexec : execute (n + 1) s = executeLoop n t := (execute_of_unfaulted h0 _).trans (executeLoop_succ hgo hstep)
  refine ⟨fun hend => hexec.trans (executeLoop_of_runEnded hend), fun hend => ?_⟩
  obtain ⟨hf, hleft⟩ := State.not_runEnded_iff.mp hend
  have hlt : t.cyc < (n + 1 : Nat) := (stepCase_of_next hstep).2.cyc_bounds.2.2 hf h0
  refine ⟨hlt, ?_⟩
  rw [hexec, execute_toNat_cyc hend]
  exact executeLoop_fuel (by omega) (by omega)

/-- Settles O41: the budget is loaded over what was left. -/
theorem executeReloadsTheBudget : Obligations.ExecuteReloadsTheBudget := by
  unfold Obligations.ExecuteReloadsTheBudget
  intro s budget left
  refine ⟨fun h => execute_of_faulted h budget, fun h0 => ⟨?_, execute_of_unfaulted h0 0⟩⟩
  have h0' : (s.setCyc left).fault = .none := h0
  exact (execute_of_unfaulted h0' budget).trans (execute_of_unfaulted h0 budget).symm

/-- Settles O45: the loop with fuel for one step. -/
theorem executeOfOneIsOneStep : Obligations.ExecuteOfOneIsOneStep := by
  unfold Obligations.ExecuteOfOneIsOneStep
  intro s h0
  have hgo : ¬ (s.setCyc (1 : Nat)).RunEnded := State.not_runEnded_iff.mpr ⟨h0, by simp⟩
  obtain ⟨t, hstep, -⟩ := exists_next_of_not_runEnded hgo
  rw [execute_of_unfaulted h0, executeLoop_succ hgo hstep]
  exact hstep.symm

/-- R84: a step of a run that has not ended leaves at least -5 cycles. -/
theorem cyc_lower_bound_of_step (h : ¬ s.RunEnded) (hstep : step s = .next t) : -5 ≤ t.cyc := by
  obtain ⟨-, hpos⟩ := State.not_runEnded_iff.mp h
  obtain ⟨-, hlow, -⟩ := (stepCase_of_next hstep).2.cyc_bounds
  omega

/-- Settles O43: the last step started with at least one cycle. -/
theorem softBudgetOvershoot : Obligations.SoftBudgetOvershoot := by
  unfold Obligations.SoftBudgetOvershoot
  intro s t budget h0 hexec hf
  refine ⟨⟨?_, ?_⟩, fun hwf hone hop => ?_⟩
  · exact execute_keeps (P := fun s => -5 ≤ s.cyc) (fun _ _ hgo _ hstep => cyc_lower_bound_of_step hgo hstep)
      (fun h => absurd h0 h) (by simp) hexec
  · obtain ⟨-, t', -, -, hexec', hended, -⟩ := executeTerminates s budget h0
    cases hexec.symm.trans hexec'
    exact hended.resolve_left (by simp [hf])
  · subst hone
    have hstep : step (s.setCyc 1) = .next t := (executeOfOneIsOneStep s h0).symm.trans hexec
    have hit : s.config.lookup (s.byteAt s.pc) = some .jsrAbs := State.lookup_of_opcode hwf hop
    obtain rfl := (stepCase_of_next hstep).2.eq_of_jsrAbs hf hit
    simp

/-- R99: over `n` bytes without an entry Execute with `n` cycles walks one byte and one cycle at a time. -/
theorem executeLoop_of_unknownNops {n : Nat} (h0 : s.fault = .none) (hpolicy : s.config.unknownOpcodePolicy = .nop)
    (hcyc : s.cyc = n)
    (hcells : ∀ k < n, s.InRange (s.pc + BitVec.ofNat 16 k) ∧
      s.config.lookup (s.byteAt (s.pc + BitVec.ofNat 16 k)) = none) :
    executeLoop n s = .next (s.afterFetch n) := by
  induction n generalizing s with
  | zero => rw [State.afterFetch_zero]; rfl
  | succ n ih =>
    have hgo : ¬ s.RunEnded := State.not_runEnded_iff.mpr ⟨h0, by omega⟩
    obtain ⟨hin, miss⟩ : s.InRange s.pc ∧ s.config.lookup (s.byteAt s.pc) = none := by simpa using hcells 0 (by omega)
    have hrest := ih (s := s.afterFetch 1) h0 hpolicy (by simp [hcyc]) fun k hk => by
      have hnext := hcells (1 + k) (by omega)
      rwa [BitVec.ofNat_add, ← BitVec.add_assoc] at hnext
    rw [executeLoop_succ hgo (step_of_stepCase h0 (.unknownNop hin miss hpolicy)), hrest,
      State.afterFetch_afterFetch, Nat.add_comm]

/-- Settles O25: the corner case runs over bytes that have no entry because 0x00 has none. -/
theorem unknownOpcodeIsOneCycleNop : Obligations.UnknownOpcodeIsOneCycleNop := by
  unfold Obligations.UnknownOpcodeIsOneCycleNop
  intro s h0 hpolicy
  refine ⟨step_opcodeOut h0, fun h miss => step_of_stepCase h0 (.unknownNop h miss hpolicy), fun n miss hcells => ?_⟩
  have hloop := executeLoop_of_unknownNops (s := s.setCyc n) (n := n) h0 hpolicy rfl fun k hk => by
    obtain ⟨hin, hzero⟩ := hcells k hk
    refine ⟨hin, ?_⟩
    rw [← hzero] at miss
    exact miss
  rw [execute_of_unfaulted h0, hloop]
  exact congrArg _ (State.eq_of_cyc_eq rfl (by simp))

/-! ## Runs of the machine -/

/-- A run of one step more is a step and a run from there. -/
theorem cleanRun_succ {k : Nat} (h : CleanRun (k + 1) s t) : ∃ u, step s = .next u ∧ CleanRun k u t := by
  obtain ⟨hrun, hf⟩ := h
  have h0 : s.fault = .none := by
    by_contra h
    simp [Host.Core.run, show core.step s = .fault (.coreFaulted s.fault) from step_of_faulted h] at hrun
  obtain ⟨u, hstep⟩ := exists_next_of_unfaulted h0
  exact ⟨u, hstep, (core_run_succ hstep).symm.trans hrun, hf⟩

/-- Settles O46, by induction on the number of steps: each starts unfaulted, for the run after it does. -/
theorem cleanRunSpendsCycles : Obligations.CleanRunSpendsCycles := by
  unfold Obligations.CleanRunSpendsCycles
  intro k
  induction k with
  | zero =>
    rintro s t ⟨hrun, hf⟩
    cases hrun
    exact ⟨hf, rfl, by simp, by simp⟩
  | succ k ih =>
    intro s t h
    obtain ⟨u, hstep, hrest⟩ := cleanRun_succ h
    obtain ⟨hu, hconfig, hlow, hhigh⟩ := ih u t hrest
    obtain ⟨h0, hc⟩ := stepCase_of_next hstep
    obtain ⟨-, hsix, hone⟩ := hc.cyc_bounds
    obtain ⟨-, -, hconfig'⟩ := hc.keeps_x_y_config
    have hless := hone hu h0
    exact ⟨h0, hconfig.trans hconfig', by push_cast; omega, by push_cast; omega⟩

end Sys2Proof.Machine

/-! # The host's requests (R120 to R128) -/

namespace Sys2Proof.Machine

variable {s t : State}

/-- R87, R128: an Execute request whose budget fits is done, and leaves what Execute answers. -/
theorem request_execute {budget : Nat} (h : budget < 2 ^ s.config.budgetWidth) (hexec : execute budget s = .next t) :
    request (.execute budget) s = (.done, t) := by
  simp [request, h, hexec]

/-- R87: Execute always returns. -/
theorem exists_execute (budget : Nat) (s : State) : ∃ t, execute budget s = .next t := by
  by_cases h0 : s.fault = .none
  · obtain ⟨-, t, -, -, hexec, -⟩ := executeTerminates s budget h0
    exact ⟨t, hexec⟩
  · exact ⟨s, execute_of_faulted h0 budget⟩

/-- Every way a host request can end, with the reply and the state it leaves. -/
inductive RequestCase (s : State) : Request → Reply → State → Prop
  | reset : RequestCase s .reset .done (resetCore s)
  | execute {budget : Nat} {t : State} (fits : budget < 2 ^ s.config.budgetWidth) (h : execute budget s = .next t) :
      RequestCase s (.execute budget) .done t
  | budgetTooWide {budget : Nat} (h : 2 ^ s.config.budgetWidth ≤ budget) :
      RequestCase s (.execute budget) (.rejected .budgetTooWide) s
  | writeMem {addr : Nat} {v : Byte} (h0 : s.fault = .none) (h : addr < s.config.memCapacity) :
      RequestCase s (.writeMem addr v) .done (s.setMem (s.mem.poke addr v))
  | writeMemOut {addr : Nat} {v : Byte} (h0 : s.fault = .none) (h : s.config.memCapacity ≤ addr) :
      RequestCase s (.writeMem addr v) (.rejected .addressOutOfRange) s
  | writeMemFaulted {addr : Nat} {v : Byte} (h0 : s.fault ≠ .none) :
      RequestCase s (.writeMem addr v) (.rejected .coreFaulted) s
  | readMem {addr : Nat} (h : addr < s.config.memCapacity) :
      RequestCase s (.readMem addr) (.byte (s.mem.peek addr)) s
  | readMemOut {addr : Nat} (h : s.config.memCapacity ≤ addr) :
      RequestCase s (.readMem addr) (.rejected .addressOutOfRange) s
  | writeReg {w : RegWrite} (h0 : s.fault = .none) : RequestCase s (.writeReg w) .done (applyRegWrite w s)
  | writeRegFaulted {w : RegWrite} (h0 : s.fault ≠ .none) :
      RequestCase s (.writeReg w) (.rejected .coreFaulted) s
  | readState : RequestCase s .readState (.view s.view) s

/-- The listed cases are all. -/
theorem requestCase (q : Request) (s : State) : RequestCase s q (request q s).1 (request q s).2 := by
  cases q with
  | reset => exact .reset
  | execute budget =>
    by_cases fits : budget < 2 ^ s.config.budgetWidth
    · obtain ⟨t, hexec⟩ := exists_execute budget s
      rw [request_execute fits hexec]
      exact .execute fits hexec
    · simpa [request, fits] using .budgetTooWide (not_lt.mp fits)
  | writeMem addr v =>
    by_cases h0 : s.fault = .none
    · by_cases h : addr < s.config.memCapacity
      · simpa [request, h0, h] using .writeMem h0 h
      · simpa [request, h0, h] using .writeMemOut h0 (not_lt.mp h)
    · simpa [request, h0] using .writeMemFaulted h0
  | readMem addr =>
    by_cases h : addr < s.config.memCapacity
    · simpa [request, h] using .readMem h
    · simpa [request, h] using .readMemOut (not_lt.mp h)
  | writeReg w =>
    by_cases h0 : s.fault = .none
    · simpa [request, h0] using .writeReg h0
    · simpa [request, h0] using .writeRegFaulted h0
  | readState => exact .readState

/-- R127: a register write leaves memory, `cyc`, the fault record and the parameters. -/
theorem applyRegWrite_frame (w : RegWrite) (s : State) :
    (applyRegWrite w s).mem = s.mem ∧ (applyRegWrite w s).cyc = s.cyc ∧ (applyRegWrite w s).fault = s.fault ∧
      (applyRegWrite w s).config = s.config := by
  cases w <;> exact ⟨rfl, rfl, rfl, rfl⟩

/-! ## The invariant -/

/-- Execute keeps the invariant and the parameters, for it makes steps only. -/
theorem execute_keeps_inv {budget : Nat} (h : s.Inv) (hexec : execute budget s = .next t) :
    t.Inv ∧ t.config = s.config := by
  refine execute_keeps (P := fun u => u.Inv ∧ u.config = s.config) ?_ (fun _ => ⟨h, rfl⟩)
    ⟨h.of_same rfl rfl, rfl⟩ hexec
  rintro u v - ⟨hinv, hconfig⟩ hstep
  obtain ⟨-, hc⟩ := stepCase_of_next hstep
  obtain ⟨-, -, hconfig'⟩ := hc.keeps_x_y_config
  exact ⟨hc.inv hinv, hconfig'.trans hconfig⟩

/-- Settles O51, by the ways a request can end. -/
theorem hostRequestsKeepInvariant : Obligations.HostRequestsKeepInvariant := by
  unfold Obligations.HostRequestsKeepInvariant
  intro q s h
  have hcase := requestCase q s
  generalize (request q s).1 = reply, (request q s).2 = t at hcase ⊢
  cases hcase with
  | reset => exact ⟨State.resetWith_inv h.configWf, rfl⟩
  | execute _ hexec => exact execute_keeps_inv h hexec
  | writeMem _ hin => exact ⟨h.poke hin rfl rfl, rfl⟩
  | writeReg =>
    obtain ⟨hmem, -, -, hconfig⟩ := applyRegWrite_frame _ s
    exact ⟨h.of_same hmem hconfig, hconfig⟩
  | _ => exact ⟨h, rfl⟩

/-! ## The cycle count -/

/-- R18: Execute leaves `cyc` between -5 and a bound on what it was and on the budget. -/
theorem execute_cyc_bounds {budget : Nat} {bound : Int} (hlow : -5 ≤ s.cyc) (hhigh : s.cyc ≤ bound)
    (hbudget : budget ≤ bound) (hexec : execute budget s = .next t) : -5 ≤ t.cyc ∧ t.cyc ≤ bound := by
  refine execute_keeps (P := fun u => -5 ≤ u.cyc ∧ u.cyc ≤ bound) ?_ (fun _ => ⟨hlow, hhigh⟩)
    ⟨by simp, hbudget⟩ hexec
  rintro u v hgo ⟨-, hu⟩ hstep
  obtain ⟨hle, -, -⟩ := (stepCase_of_next hstep).2.cyc_bounds
  exact ⟨cyc_lower_bound_of_step hgo hstep, hle.trans hu⟩

/-- Settles O44: a budget of `BUDGET_WIDTH` bits is within the bound. -/
theorem cycleCountStaysInRange : Obligations.CycleCountStaysInRange := by
  unfold Obligations.CycleCountStaysInRange
  intro s hwf
  have hpos : (1 : Int) ≤ 2 ^ s.config.budgetWidth := one_le_pow₀ (by omega)
  have hreset : -5 ≤ (resetCore s).cyc ∧ (resetCore s).cyc ≤ 2 ^ s.config.budgetWidth - 1 := by
    rw [show (resetCore s).cyc = 0 from rfl]
    omega
  refine ⟨hreset, fun q hlow hhigh => ?_⟩
  have hcase := requestCase q s
  generalize (request q s).1 = reply, (request q s).2 = t at hcase ⊢
  cases hcase with
  | reset => exact hreset
  | @execute budget _ fits hexec =>
    have hfits : (budget : Int) < 2 ^ s.config.budgetWidth := by exact_mod_cast fits
    exact execute_cyc_bounds hlow hhigh (by omega) hexec
  | writeReg =>
    obtain ⟨-, hcyc, -⟩ := applyRegWrite_frame _ s
    rw [hcyc]
    exact ⟨hlow, hhigh⟩
  | _ => exact ⟨hlow, hhigh⟩

/-! ## Reset, faults and host accesses -/

/-- Settles O47: reset reads the parameters only. -/
theorem resetValues : Obligations.ResetValues := by
  unfold Obligations.ResetValues
  intro s
  exact ⟨rfl, rfl, rfl, rfl, rfl, rfl, fun _ => rfl, rfl, rfl, rfl, rfl, rfl, rfl, rfl⟩

/-- Settles O48: what changes the state on a faulted core is reset alone. -/
theorem faultIsFinalUntilReset : Obligations.FaultIsFinalUntilReset := by
  unfold Obligations.FaultIsFinalUntilReset
  intro s h
  refine ⟨step_of_faulted h, execute_of_faulted h, fun q hq => ?_, rfl⟩
  have hcase := requestCase q s
  generalize (request q s).1 = reply, (request q s).2 = t at hcase ⊢
  cases hcase with
  | reset => exact absurd rfl hq
  | execute _ hexec =>
    rw [execute_of_faulted h] at hexec
    cases hexec
    rfl
  | writeMem h0 => exact absurd h0 h
  | writeReg h0 => exact absurd h0 h
  | _ => rfl

/-- R124: what is rejected changes nothing, and no Execute stops without returning. -/
theorem request_rejected {q : Request} {r : Rejection} (h : (request q s).1 = .rejected r) :
    (request q s).2 = s ∧ r ≠ .executeStopped := by
  have hcase := requestCase q s
  rw [h] at hcase
  generalize (request q s).2 = t at hcase
  cases hcase <;> exact ⟨rfl, by simp⟩

/-- Settles O49: read after write in the array, and the ways a request can be rejected. -/
theorem hostMemoryAccess : Obligations.HostMemoryAccess := by
  unfold Obligations.HostMemoryAccess
  intro s addr v h0 hwf
  refine ⟨fun hin => ⟨s.setMem (s.mem.poke addr v), by simp [request, h0, hin], rfl, ?_, ?_⟩, fun hout => ?_,
    fun q r => request_rejected⟩
  · simp [request, hin, Memory.peek_poke_self addr v hwf]
  · exact fun other hne => Memory.peek_poke_other v s.mem hne
  · simp [request, h0, hout]

/-- Settles O50: each of the twelve writes replaces one field of the view. -/
theorem hostRegisterWrites : Obligations.HostRegisterWrites := by
  unfold Obligations.HostRegisterWrites
  intro s w h0
  obtain ⟨hmem, -, -, hconfig⟩ := applyRegWrite_frame w s
  exact ⟨applyRegWrite w s, by simp [request, h0], rfl, hmem, hconfig, by cases w <;> rfl⟩

end Sys2Proof.Machine
